-- ==== Sys2Proof/Word.lean ====
section
/-! DEFINITION. The word types of the Frame codec: registers are 32 bits wide (R18), header fields 16 (R67), buffers hold bytes (R8). -/

namespace Sys2Proof

/-- A byte of a buffer, a frame or a record (R8). -/
abbrev Byte := BitVec 8

/-- A 16-bit header field (R67). -/
abbrev Half := BitVec 16

/-- A 32-bit register or operation word (R18, R63). -/
abbrev Word := BitVec 32

end Sys2Proof
end

