-- ==== Sys2Proof/Syntax.lean ====
section
/-! DEFINITION. The thirteen operations of R65. An operation word has no register and no immediate field (R64), so no constructor has an argument. -/

namespace Sys2Proof

/-- One operation of the engine (R15, R65), in the order of the table. -/
inductive Instr where
  /-- CSUM: checksum of the slice (R87). -/
  | csum
  /-- ENCODE: build a frame (R89). -/
  | encode
  /-- DECODE: take a frame apart (R93). -/
  | decode
  /-- PARSE_USER_S: the 28-byte user record (R111). -/
  | parseUserS
  /-- PARSE_USER_L: the 72-byte user record (R112). -/
  | parseUserL
  /-- PARSE_ATT_S: the 16-byte attendance record (R113). -/
  | parseAttS
  /-- PARSE_ATT_L: the 40-byte attendance record (R114). -/
  | parseAttL
  /-- PARSE_RT_S: the 18-byte real-time event (R115). -/
  | parseRtS
  /-- PARSE_RT_L: the 52-byte real-time event (R116). -/
  | parseRtL
  /-- PARSE_DEVINFO: the device information (R117). -/
  | parseDevinfo
  /-- TS_DECODE_INT: decode the integer timestamp in ARG (R100). -/
  | tsDecodeInt
  /-- TS_ENCODE_INT: encode the timestamp bank (R102). -/
  | tsEncodeInt
  /-- TS_DECODE_HEX: decode the 6-byte timestamp form (R104). -/
  | tsDecodeHex
  deriving DecidableEq, Repr

end Sys2Proof
end

