-- ==== Sys2Proof/Decode.lean ====
section
/-! DEFINITION. Decoding an operation word (R63, R65, R66) and, after it, encoding one. The table is R65's; a word is matched on all 32 bits. -/

namespace Sys2Proof

/-- Why a word or a byte string is no operation. -/
inductive DecodeReject where
  /-- R66, R129: a 32-bit value that R65 does not list. -/
  | illegalOp
  /-- R63: fewer than the four bytes of an operation word. -/
  | truncated
  deriving DecidableEq, Repr

/-- The op code table of R65: each operation with its 32-bit op code. -/
def opTable : List (Instr × Word) :=
  [(.csum, 0x00000001), (.encode, 0x00000002), (.decode, 0x00000003),
   (.parseUserS, 0x00000010), (.parseUserL, 0x00000011), (.parseAttS, 0x00000012), (.parseAttL, 0x00000013),
   (.parseRtS, 0x00000014), (.parseRtL, 0x00000015), (.parseDevinfo, 0x00000016),
   (.tsDecodeInt, 0x00000020), (.tsEncodeInt, 0x00000021), (.tsDecodeHex, 0x00000022)]

/-- The operation a 32-bit value selects: only when all 32 bits equal one code of R65 (R63). -/
def decode (w : Word) : Except DecodeReject Instr :=
  match opTable.find? (fun row => row.2 == w) with
  | some row => .ok row.1
  | none => .error .illegalOp

/-- A word from its four bytes, the first at the lowest address (R49). -/
def wordOfBytes (b0 b1 b2 b3 : Byte) : Word :=
  BitVec.ofNat 32 (b0.toNat + 256 * b1.toNat + 65536 * b2.toNat + 16777216 * b3.toNat)

/-- Decoding from bytes: the first operation word and the bytes after it. -/
def decodeBytes : List Byte → Except DecodeReject (Instr × List Byte)
  | b0 :: b1 :: b2 :: b3 :: rest =>
    match decode (wordOfBytes b0 b1 b2 b3) with
    | .ok i => .ok (i, rest)
    | .error e => .error e
  | _ => .error .truncated

/-- The op code of an operation (R65). -/
def encode : Instr → Word
  | .csum => 0x00000001
  | .encode => 0x00000002
  | .decode => 0x00000003
  | .parseUserS => 0x00000010
  | .parseUserL => 0x00000011
  | .parseAttS => 0x00000012
  | .parseAttL => 0x00000013
  | .parseRtS => 0x00000014
  | .parseRtL => 0x00000015
  | .parseDevinfo => 0x00000016
  | .tsDecodeInt => 0x00000020
  | .tsEncodeInt => 0x00000021
  | .tsDecodeHex => 0x00000022

/-- The four bytes of a word, least significant first (R49). -/
def bytesOfWord (w : Word) : List Byte :=
  [w.extractLsb' 0 8, w.extractLsb' 8 8, w.extractLsb' 16 8, w.extractLsb' 24 8]

/-- The bytes of an operation's word, as a 4-byte access carries them (R49, R63). -/
def encodeBytes (i : Instr) : List Byte := bytesOfWord (encode i)

/-- The operation the decoder reads from a word numbered as the opcode table numbers it: the bits above `nbits` are 0, the word
is laid out little-endian and given to `decodeBytes`. -/
def decodeTableWord (nbits w : Nat) : Option Instr :=
  match decodeBytes (bytesOfWord (BitVec.ofNat 32 (w % 2 ^ nbits))) with
  | .ok (i, _) => some i
  | .error _ => none

end Sys2Proof
end

