-- ==== Sys2Proof/Config.lean ====
section
/-! DEFINITION. The parameters of R6 and the free values: what one implementation or one platform fixes and the spec leaves open. A constant declared `opaque` has no body, so no proof can see its value. -/

namespace Sys2Proof

/-- The parameters of R6. `State` carries them as constant data, so that every statement holds for every value of them (log 2). -/
structure Params where
  /-- `BASE`, the platform address of the block (R45). -/
  base : Nat
  /-- `BUF_BYTES`, the size of `IBUF` and of `OBUF` (R39, R40). -/
  bufBytes : Nat
  /-- `DEVINFO_WIDTH` (R75). -/
  devWidth : Nat
  /-- `DEVINFO_OFF_USERS` (R75). -/
  devOffUsers : Nat
  /-- `DEVINFO_OFF_LOGS` (R75). -/
  devOffLogs : Nat
  /-- `DEVINFO_OFF_CAP` (R75). -/
  devOffCap : Nat
  deriving DecidableEq, Repr

/-- The legal parameters: `BASE` a multiple of 0x40000 (R45), `BUF_BYTES` from 16 to 65536, and `DEVINFO_OFF_x + 4 <= DEVINFO_WIDTH <= BUF_BYTES` (R6). -/
def Params.legal (p : Params) : Bool :=
  decide (p.base % 0x40000 = 0) && decide (16 ≤ p.bufBytes) && decide (p.bufBytes ≤ 65536)
    && decide (p.devOffUsers + 4 ≤ p.devWidth) && decide (p.devOffLogs + 4 ≤ p.devWidth)
    && decide (p.devOffCap + 4 ≤ p.devWidth) && decide (p.devWidth ≤ p.bufBytes)

/-- Which multiple of 0x40000 the platform chose for `BASE` (U11, log 2). -/
opaque Config.baseBlock : Nat
/-- The open width of the DeviceInfo layout, before it is brought into its legal range (U13, log 2). -/
opaque Config.devWidthDraw : Nat
/-- The open offset of `user_count` (U13, log 2). -/
opaque Config.devUsersDraw : Nat
/-- The open offset of `log_count` (U13, log 2). -/
opaque Config.devLogsDraw : Nat
/-- The open offset of `log_capacity` (U13, log 2). -/
opaque Config.devCapDraw : Nat

/-- What byte `i` of `IBUF` holds after the `epoch`-th reset until the host writes it (U1, R141, log 3). -/
opaque Config.ibufUnwritten : (epoch : Nat) → (i : Nat) → Byte
/-- What byte `i` of `OBUF` holds after the `epoch`-th reset until an operation writes it (U1, R141, log 3). -/
opaque Config.obufUnwritten : (epoch : Nat) → (i : Nat) → Byte
/-- How many host turns come before the completion of the `n`-th operation started, when `State.turns` does not settle it: any
finite number (U10, R139, log 1). -/
opaque Config.latency : (n : Nat) → Nat
/-- The value of a host variable that no statement has assigned yet (log 7). -/
opaque Config.unassigned : (x : Nat) → Word

/-- The parameters of the machine at reset: `BUF_BYTES` at its default 65536, every OPEN parameter at a free value, each
brought into the range R6 allows (every legal value is reached by some draw; log 2). -/
def Config.params : Params :=
  let width := 4 + Config.devWidthDraw % 65533
  { base := 0x40000 * Config.baseBlock
    bufBytes := 65536
    devWidth := width
    devOffUsers := Config.devUsersDraw % (width - 3)
    devOffLogs := Config.devLogsDraw % (width - 3)
    devOffCap := Config.devCapDraw % (width - 3) }

end Sys2Proof
end

