-- ==== Sys2Proof/Machine/HostSyntax.lean ====
section
/-! DEFINITION. What the host agent can say: the register names of R18, the bus accesses of R10, the statements of R79, and whose turn it is. -/

namespace Sys2Proof.Machine

/-- A register of the register window (R18), or one word of a string window: `recName k` is the word at byte `k` of the
window (R37, R79 `REC_NAME+k`), with `k` a multiple of 4 inside the window. -/
inductive Reg where
  | id | ctrl | status | op | ioff | ilen | olen | arg | result
  | hdrCmd | hdrCsum | hdrSid | hdrRid | envLen
  | tsYear | tsMonth | tsDay | tsHour | tsMin | tsSec | tsConv
  | recKind | recValid | recFlags | recUid | recRole | recCard | recUseridNum | recUserSn
  | recPwLen | recNameLen | recUseridLen | recDevUsers | recDevLogs | recDevCap
  | recPassword (k : Nat) | recName (k : Nat) | recUserid (k : Nat)
  deriving DecidableEq, Repr

/-- One host bus access (R10): `MemRead(addr, n)` or `MemWrite(addr, n, v)`. -/
inductive BusOp where
  | read (addr : Nat) (n : Nat)
  | write (addr : Nat) (n : Nat) (v : Word)
  deriving DecidableEq, Repr

/-- What an admitted access reaches: a register, or `n` bytes of a buffer from index `i` (R44, R46, R50). -/
inductive Target where
  | reg (r : Reg)
  | inBuf (i : Nat) (n : Nat)
  | outBuf (i : Nat) (n : Nat)
  deriving DecidableEq, Repr

/-- What a host variable holds: the value of one register or memory read, or the bytes of an `rdb` (R79). -/
inductive Value where
  | word (w : Word)
  | bytes (bs : List Byte)
  deriving DecidableEq, Repr

/-- A statement of a host program (R79), with the raw accesses of R10 beside them (log 18). Variables and labels are numbers
(log 7, log 8). -/
inductive Stmt where
  /-- `x <- MemRead(addr, n)` (R10). -/
  | memRead (addr : Nat) (n : Nat) (x : Nat)
  /-- `MemWrite(addr, n, v)` (R10). -/
  | memWrite (addr : Nat) (n : Nat) (v : Word)
  /-- `wr32 REG, imm`. -/
  | wr32 (r : Reg) (imm : Word)
  /-- `rd32 REG -> x`. -/
  | rd32 (r : Reg) (x : Nat)
  /-- `wrb IBUF+i, b0 b1 ... bk`. -/
  | wrb (i : Nat) (bs : List Byte)
  /-- `rdb IBUF+i, n -> x`. -/
  | rdbIn (i : Nat) (n : Nat) (x : Nat)
  /-- `rdb OBUF+i, n -> x`. -/
  | rdbOut (i : Nat) (n : Nat) (x : Nat)
  /-- `label:`. -/
  | label (l : Nat)
  /-- `bnz x, mask, label`: branch when `x AND mask != 0`. -/
  | bnz (x : Nat) (mask : Word) (l : Nat)
  deriving DecidableEq, Repr

/-- The host agent (R5): its program, the statement it stands at, how many bytes of a `wrb` or `rdb` are done, and its
variables (sorted by number, each number once). The model's own data, not state of the block (R17, log 22). -/
structure HostAgent where
  prog : List Stmt
  pos : Nat
  sub : Nat
  vars : List (Nat × Value)
  deriving DecidableEq, Repr

/-- Who moves in a step: the host, the engine (R5), or the reset input is asserted (R140). -/
inductive Turn where
  | host
  | engine
  | reset
  deriving DecidableEq, Repr

end Sys2Proof.Machine
end

