-- ==== Sys2Proof/Machine/State.lean ====
section
/-! DEFINITION. The state of the machine (R17): every register of R18, the two buffers (R39, R40), the pending operation (R41),
and the model's own data: parameters, host agent, turns, reset count. State is plain data. -/

namespace Sys2Proof.Machine

/-- Why the machine stops. Both are faults of the host agent, named by the spec. -/
inductive Fault where
  /-- R52: an access that R44, R46, R50 or R51 does not admit. Raised by the bus (`State.bus`). Safe: the spec itself says the
  model treats it as a fault. -/
  | busError (op : BusOp)
  /-- R145: an access other than a STATUS read while `STATUS.BUSY = 1`. Raised by the bus (`State.bus`). Safe: the spec itself
  says the model treats it as a fault. -/
  | hostHazard (op : BusOp)
  deriving DecidableEq, Repr

/-- Why the model has no next state although the spec names no fault. -/
inductive Refusal where
  /-- An operation without a meaning. Raised by an arm of `exec` only; no arm raises it. Safe. -/
  | notModelled (mnemonic : String)
  /-- A host branch was taken to a label its program does not hold (R79 gives it no meaning; log 8). Raised by the host's turn.
  Safe: the model stops. -/
  | undefinedLabel (l : Nat)
  deriving DecidableEq, Repr

/-- The error codes of R123. -/
inductive Err where
  | ok | malformedFrame | decodeError | checksumMismatch | illegalOp | bounds | lengthOverflow | range
  deriving DecidableEq, Repr

/-- The DECODE flags of R94, `STATUS` bits 13:10. -/
structure DecodeFlags where
  envPresent : Bool
  csumMismatch : Bool
  lenMismatch : Bool
  rsvNonzero : Bool
  deriving DecidableEq, Repr

/-- The flags every operation but DECODE writes (R21). -/
def DecodeFlags.clear : DecodeFlags :=
  { envPresent := false, csumMismatch := false, lenMismatch := false, rsvNonzero := false }

/-- `STATUS` (R21), field by field. -/
structure Status where
  err : Err
  done : Bool
  busy : Bool
  flags : DecodeFlags
  csumSticky : Bool
  deriving DecidableEq, Repr

/-- `CTRL` (R20). -/
structure Ctrl where
  stream : Bool
  strict : Bool
  deriving DecidableEq, Repr

/-- `HDR_CMD`, `HDR_CSUM`, `HDR_SID`, `HDR_RID` (R28, R29). -/
structure Header where
  cmd : Half
  csum : Half
  sid : Half
  rid : Half
  deriving DecidableEq, Repr

/-- `TS_YEAR` to `TS_SEC` (R31). -/
structure Timestamp where
  year : Word
  month : Word
  day : Word
  hour : Word
  minute : Word
  second : Word
  deriving DecidableEq, Repr

/-- The month convention, `TS_CONV` (R32). -/
inductive MonthConv where
  | oneIndexed
  | zeroIndexed
  deriving DecidableEq, Repr

/-- The layout of the last successful parse, `REC_KIND` (R33). -/
inductive RecKind where
  | userS | userL | attS | attL | rtS | rtL | devinfo
  deriving DecidableEq, Repr

/-- The record bank (R33 to R38). A field that is unset is absent (R109); `hasTime` is bit 8 of `REC_VALID` (R34). -/
structure Record where
  kind : Option RecKind
  uid : Option Half
  role : Option Byte
  password : Option (List Byte)
  name : Option (List Byte)
  card : Option Word
  useridStr : Option (List Byte)
  useridNum : Option Word
  userSn : Option Half
  hasTime : Bool
  devUsers : Option Word
  devLogs : Option Word
  devCap : Option Word
  deriving DecidableEq, Repr

/-- The record bank with nothing set: after reset, and what a parse starts from (R110). -/
def Record.empty : Record :=
  { kind := none, uid := none, role := none, password := none, name := none, card := none, useridStr := none,
    useridNum := none, userSn := none, hasTime := false, devUsers := none, devLogs := none, devCap := none }

/-- A date and time as integers, before it is put into registers (R99, R101). -/
structure Civil where
  year : Int
  month : Int
  day : Int
  hour : Int
  minute : Int
  second : Int
  deriving DecidableEq, Repr

/-- What one parse hands over: the record and, where the layout has one, its timestamp with its month convention (R110). -/
structure Parsed where
  recd : Record
  time : Option (Civil × MonthConv)
  deriving DecidableEq, Repr

/-- What DECODE reads out of a frame that is long enough (R93). -/
structure FrameView where
  flags : DecodeFlags
  hdr : Header
  payload : List Byte
  envLen : Half
  computed : Half
  deriving DecidableEq, Repr

/-- A buffer: the bytes written since reset, by index, indices strictly rising. An index not listed has no written byte
(log 3). -/
abbrev Memory := List Host.Cell

/-- The state. The fields down to `pending` are the block's (R17); the others are the model's own: the parameters
(log 2), the host agent, the turns that are settled, how many more host turns come before the pending operation completes once
those are used up, how many operations have been started, and how many resets have been asserted (log 1, log 4, log 22). -/
structure State where
  ctrl : Ctrl
  status : Status
  op : Word
  ioff : Word
  ilen : Word
  olen : Word
  arg : Word
  result : Word
  hdr : Header
  envLen : Half
  ts : Timestamp
  tsConv : MonthConv
  recd : Record
  ibuf : Memory
  obuf : Memory
  pending : Option Word
  cfg : Params
  host : HostAgent
  turns : List Turn
  delay : Nat
  started : Nat
  epoch : Nat
  deriving DecidableEq, Repr

/-- The machine right after reset (R18, R140): every register at its reset value, nothing pending, no byte of a buffer written
since reset (R141), the host's program not yet given. -/
def State.reset : State where
  ctrl := { stream := false, strict := false }
  status := { err := .ok, done := false, busy := false, flags := .clear, csumSticky := false }
  op := 0
  ioff := 0
  ilen := 0
  olen := 0
  arg := 0
  result := 0
  hdr := { cmd := 0, csum := 0, sid := 0, rid := 0 }
  envLen := 0
  ts := { year := 0, month := 0, day := 0, hour := 0, minute := 0, second := 0 }
  tsConv := .oneIndexed
  recd := .empty
  ibuf := []
  obuf := []
  pending := none
  cfg := Config.params
  host := { prog := [], pos := 0, sub := 0, vars := [] }
  turns := []
  delay := 0
  started := 0
  epoch := 0

end Sys2Proof.Machine
end

