-- ==== Sys2Proof/Machine/Flags.lean ====
section
/-! DEFINITION. The registers that are made of fields: STATUS, CTRL, REC_VALID, REC_FLAGS, REC_KIND, TS_CONV and the error codes. Reserved bits read 0 (R18). -/

namespace Sys2Proof.Machine

/-- One flag at bit `n` of a register. -/
def bitAt (n : Nat) (b : Bool) : Word := if b then 1#32 <<< n else 0#32

/-- The error codes of R123, `STATUS` bits 3:0. -/
def Err.code : Err → BitVec 4
  | .ok => 0
  | .malformedFrame => 1
  | .decodeError => 2
  | .checksumMismatch => 3
  | .illegalOp => 4
  | .bounds => 5
  | .lengthOverflow => 6
  | .range => 7

/-- `STATUS` as the host reads it (R21). -/
def Status.word (st : Status) : Word :=
  st.err.code.setWidth 32 ||| bitAt 8 st.done ||| bitAt 9 st.busy ||| bitAt 10 st.flags.envPresent
    ||| bitAt 11 st.flags.csumMismatch ||| bitAt 12 st.flags.lenMismatch ||| bitAt 13 st.flags.rsvNonzero
    ||| bitAt 16 st.csumSticky

/-- A host write of `v` to `STATUS`: a 1 in bit 16 clears `CSUM_STICKY`, every other bit is ignored (R22). -/
def Status.hostWrite (st : Status) (v : Word) : Status :=
  { st with csumSticky := st.csumSticky && !v.getLsbD 16 }

/-- `CTRL` as the host reads it (R20). -/
def Ctrl.word (c : Ctrl) : Word := bitAt 0 c.stream ||| bitAt 1 c.strict

/-- A host write of `v` to `CTRL`: bits 31:2 are ignored (R20). -/
def Ctrl.ofWord (v : Word) : Ctrl := { stream := v.getLsbD 0, strict := v.getLsbD 1 }

/-- `TS_CONV` (R32). -/
def MonthConv.word : MonthConv → Word
  | .oneIndexed => 0
  | .zeroIndexed => 1

/-- The operation that parses a layout. -/
def RecKind.instr : RecKind → Instr
  | .userS => .parseUserS
  | .userL => .parseUserL
  | .attS => .parseAttS
  | .attL => .parseAttL
  | .rtS => .parseRtS
  | .rtL => .parseRtL
  | .devinfo => .parseDevinfo

/-- `REC_KIND`: the op code of the last successful parse, 0 when none has completed (R33). -/
def Record.kindWord (r : Record) : Word :=
  match r.kind with
  | some k => Sys2Proof.encode k.instr
  | none => 0

/-- `REC_VALID`: one bit for each field that is set (R34). -/
def Record.validWord (r : Record) : Word :=
  bitAt 0 r.uid.isSome ||| bitAt 1 r.role.isSome ||| bitAt 2 r.password.isSome ||| bitAt 3 r.name.isSome
    ||| bitAt 4 r.card.isSome ||| bitAt 5 r.useridStr.isSome ||| bitAt 6 r.useridNum.isSome
    ||| bitAt 7 r.userSn.isSome ||| bitAt 8 r.hasTime ||| bitAt 9 r.devUsers.isSome
    ||| bitAt 10 r.devLogs.isSome ||| bitAt 11 r.devCap.isSome

/-- Some byte of the string is 0x80 or more (R108). -/
def hasHighByte (bs : List Byte) : Bool := bs.any fun b => decide (0x80 ≤ b.toNat)

/-- `REC_FLAGS`: bit 0, NONASCII, is 1 when a string of the record has a byte of 0x80 or more (R35). -/
def Record.flagsWord (r : Record) : Word :=
  bitAt 0 (hasHighByte (r.password.getD []) || hasHighByte (r.name.getD []) || hasHighByte (r.useridStr.getD []))

end Sys2Proof.Machine
end

