-- ==== Sys2Proof/Machine/Ops.lean ====
section
/-! DEFINITION. The shared operations: buffers, registers, the two ways an operation ends (R124), starting an operation (R23) and reset (R140). -/

namespace Sys2Proof.Machine

/-! ### Sorted lists keyed by number: buffers and host variables -/

/-- The value listed for `k`. -/
def assocGet {α : Type} (k : Nat) : List (Nat × α) → Option α
  | [] => none
  | c :: rest => if c.1 = k then some c.2 else assocGet k rest

/-- The list with `k` at value `v`, keys still rising. -/
def assocSet {α : Type} (k : Nat) (v : α) : List (Nat × α) → List (Nat × α)
  | [] => [(k, v)]
  | c :: rest =>
    if k < c.1 then (k, v) :: c :: rest
    else if k = c.1 then (k, v) :: rest
    else c :: assocSet k v rest

/-- The canonical form: keys strictly rising. -/
abbrev Rising {α : Type} (m : List (Nat × α)) : Prop := m.Pairwise fun a b => a.1 < b.1

/-- The canonical form of a buffer of `n` bytes: indices strictly rising and below `n`. What an unlisted index reads as is "no
written byte", which no entry can hold (log 3). -/
abbrev Memory.wf (n : Nat) (m : Memory) : Prop := Rising m ∧ ∀ c ∈ m, c.1 < n

/-- The buffer with `bs` written from index `i` on (R47: byte by byte). -/
def writeBytes (m : Memory) (i : Nat) : List Byte → Memory
  | [] => m
  | b :: bs => writeBytes (assocSet i b m) (i + 1) bs

/-- Byte `i` of `IBUF`: the last one written since reset, else the free value (R39, R141, log 3). -/
def State.ibufByte (s : State) (i : Nat) : Byte :=
  (assocGet i s.ibuf).getD (Config.ibufUnwritten s.epoch i)

/-- Byte `i` of `OBUF`: the last one written since reset, else the free value (R40, R141, log 3). -/
def State.obufByte (s : State) (i : Nat) : Byte :=
  (assocGet i s.obuf).getD (Config.obufUnwritten s.epoch i)

/-! ### How an operation ends (R124) -/

/-- What both outcomes of R124 write: the error code, bits 13:10, DONE, BUSY and `pending`. -/
def State.finish (s : State) (e : Err) (fl : DecodeFlags) : State :=
  { s with
    status := { err := e, done := true, busy := false, flags := fl, csumSticky := s.status.csumSticky }
    pending := none }

/-- `complete_ok() with fl` (R124). -/
def State.completeOk (s : State) (fl : DecodeFlags) : State := s.finish .ok fl

/-- `raise Error(code) with fl` (R124): only the status is written. This is the one shared operation for every error; the block
has no other exception entry and no return from one (R121, R134). -/
def State.raiseError (s : State) (e : Err) (fl : DecodeFlags) : State := s.finish e fl

/-- Completion of a pending value that is no op code (R129). -/
def State.illegalOp (s : State) : State := s.raiseError .illegalOp .clear

/-- DECODE found a checksum mismatch or not: `CSUM_STICKY` is set, never cleared (R21, R93). -/
def State.noteMismatch (s : State) (mismatch : Bool) : State :=
  { s with status := { s.status with csumSticky := s.status.csumSticky || mismatch } }

/-! ### Starting an operation, and reset -/

/-- A host write of `w` to `OP` (R23). How long the operation will be pending is drawn here (U10, log 1). -/
def State.startOp (s : State) (w : Word) : State :=
  { s with
    op := w
    status := { s.status with busy := true, done := false }
    pending := some w
    delay := Config.latency s.started
    started := s.started + 1 }

/-- The reset input (R140, R141, R142): the block goes to its reset state, and the bytes of both buffers are unspecified anew.
The parameters and the host agent are not part of the block (log 10). -/
def State.assertReset (s : State) : State :=
  { State.reset with cfg := s.cfg, host := s.host, turns := s.turns, started := s.started, epoch := s.epoch + 1 }

/-! ### The register window (R18, R37) -/

/-- The offset of a register, or of a word of a string window (R18, R37). -/
def Reg.offset : Reg → Nat
  | .id => 0x000
  | .ctrl => 0x004
  | .status => 0x008
  | .op => 0x00C
  | .ioff => 0x010
  | .ilen => 0x014
  | .olen => 0x018
  | .arg => 0x01C
  | .result => 0x020
  | .hdrCmd => 0x024
  | .hdrCsum => 0x028
  | .hdrSid => 0x02C
  | .hdrRid => 0x030
  | .envLen => 0x034
  | .tsYear => 0x040
  | .tsMonth => 0x044
  | .tsDay => 0x048
  | .tsHour => 0x04C
  | .tsMin => 0x050
  | .tsSec => 0x054
  | .tsConv => 0x058
  | .recKind => 0x080
  | .recValid => 0x084
  | .recFlags => 0x088
  | .recUid => 0x08C
  | .recRole => 0x090
  | .recCard => 0x094
  | .recUseridNum => 0x098
  | .recUserSn => 0x09C
  | .recPwLen => 0x0A0
  | .recNameLen => 0x0A4
  | .recUseridLen => 0x0A8
  | .recDevUsers => 0x0AC
  | .recDevLogs => 0x0B0
  | .recDevCap => 0x0B4
  | .recPassword k => 0x0C0 + k
  | .recName k => 0x0C8 + k
  | .recUserid k => 0x0E0 + k

/-- The registers of the map of R18 before the string windows. -/
def Reg.plain : List Reg :=
  [.id, .ctrl, .status, .op, .ioff, .ilen, .olen, .arg, .result, .hdrCmd, .hdrCsum, .hdrSid, .hdrRid, .envLen,
   .tsYear, .tsMonth, .tsDay, .tsHour, .tsMin, .tsSec, .tsConv,
   .recKind, .recValid, .recFlags, .recUid, .recRole, .recCard, .recUseridNum, .recUserSn,
   .recPwLen, .recNameLen, .recUseridLen, .recDevUsers, .recDevLogs, .recDevCap]

/-- The words of the three string windows (R37). -/
def Reg.strings : List Reg :=
  [.recPassword 0, .recPassword 4, .recName 0, .recName 4, .recName 8, .recName 12, .recName 16, .recName 20,
   .recUserid 0, .recUserid 4, .recUserid 8]

/-- The register at an offset; any other offset is unassigned (R18, R46). -/
def regAt (a : Nat) : Option Reg := (Reg.plain ++ Reg.strings).find? fun r => r.offset == a

/-- The word at byte `k` of a string window: byte `k` is bits 7:0 (R37); bytes past the string read 0. -/
def stringWord (str : Option (List Byte)) (k : Nat) : Word :=
  let bs := str.getD []
  wordOfBytes (bs.getD k 0) (bs.getD (k + 1) 0) (bs.getD (k + 2) 0) (bs.getD (k + 3) 0)

/-- The length register of a string (R37); an unset string has length 0. -/
def stringLen (str : Option (List Byte)) : Word := BitVec.ofNat 32 (str.getD []).length

/-- What a host read of a register returns (R19 to R38). -/
def State.readReg (s : State) : Reg → Word
  | .id => 0x46430001
  | .ctrl => s.ctrl.word
  | .status => s.status.word
  | .op => s.op
  | .ioff => s.ioff
  | .ilen => s.ilen
  | .olen => s.olen
  | .arg => s.arg
  | .result => s.result
  | .hdrCmd => s.hdr.cmd.setWidth 32
  | .hdrCsum => s.hdr.csum.setWidth 32
  | .hdrSid => s.hdr.sid.setWidth 32
  | .hdrRid => s.hdr.rid.setWidth 32
  | .envLen => s.envLen.setWidth 32
  | .tsYear => s.ts.year
  | .tsMonth => s.ts.month
  | .tsDay => s.ts.day
  | .tsHour => s.ts.hour
  | .tsMin => s.ts.minute
  | .tsSec => s.ts.second
  | .tsConv => s.tsConv.word
  | .recKind => s.recd.kindWord
  | .recValid => s.recd.validWord
  | .recFlags => s.recd.flagsWord
  | .recUid => (s.recd.uid.getD 0).setWidth 32
  | .recRole => (s.recd.role.getD 0).setWidth 32
  | .recCard => s.recd.card.getD 0
  | .recUseridNum => s.recd.useridNum.getD 0
  | .recUserSn => (s.recd.userSn.getD 0).setWidth 32
  | .recPwLen => stringLen s.recd.password
  | .recNameLen => stringLen s.recd.name
  | .recUseridLen => stringLen s.recd.useridStr
  | .recDevUsers => s.recd.devUsers.getD 0
  | .recDevLogs => s.recd.devLogs.getD 0
  | .recDevCap => s.recd.devCap.getD 0
  | .recPassword k => stringWord s.recd.password k
  | .recName k => stringWord s.recd.name k
  | .recUserid k => stringWord s.recd.useridStr k

/-- The state after a host write of `v` to a register: RW registers store it without their reserved bits, `STATUS` is W1C in bit
16, `OP` starts an operation, a write to an RO register is ignored (R18, R20 to R31). -/
def State.writeReg (s : State) (v : Word) : Reg → State
  | .ctrl => { s with ctrl := Ctrl.ofWord v }
  | .status => { s with status := s.status.hostWrite v }
  | .op => s.startOp v
  | .ioff => { s with ioff := v }
  | .ilen => { s with ilen := v }
  | .arg => { s with arg := v }
  | .hdrCmd => { s with hdr := { s.hdr with cmd := v.setWidth 16 } }
  | .hdrSid => { s with hdr := { s.hdr with sid := v.setWidth 16 } }
  | .hdrRid => { s with hdr := { s.hdr with rid := v.setWidth 16 } }
  | .tsYear => { s with ts := { s.ts with year := v } }
  | .tsMonth => { s with ts := { s.ts with month := v } }
  | .tsDay => { s with ts := { s.ts with day := v } }
  | .tsHour => { s with ts := { s.ts with hour := v } }
  | .tsMin => { s with ts := { s.ts with minute := v } }
  | .tsSec => { s with ts := { s.ts with second := v } }
  | .id | .olen | .result | .hdrCsum | .envLen | .tsConv => s
  | .recKind | .recValid | .recFlags | .recUid | .recRole | .recCard | .recUseridNum | .recUserSn => s
  | .recPwLen | .recNameLen | .recUseridLen | .recDevUsers | .recDevLogs | .recDevCap => s
  | .recPassword _ | .recName _ | .recUserid _ => s

end Sys2Proof.Machine
end

