-- ==== Sys2Proof/Machine/Operands.lean ====
section
/-! DEFINITION. Operand forms: the slice and its bounds check (R11, R82), the byte-order primitives (R9), text fields (R12), the checksum (R86), and the two timestamp forms (R99, R101, R104). -/

namespace Sys2Proof.Machine

/-! ### The slice -/

/-- `check_bounds` passes: `IOFF + ILEN <= BUF_BYTES`, without wrap-around (R82). -/
def State.sliceInBounds (s : State) : Bool := decide (s.ioff.toNat + s.ilen.toNat ≤ s.cfg.bufBytes)

/-- The slice `S = IBUF[IOFF .. IOFF+ILEN]` (R11). -/
def State.slice (s : State) : List Byte :=
  (List.range s.ilen.toNat).map fun k => s.ibufByte (s.ioff.toNat + k)

/-! ### Bytes and little-endian integers (R9) -/

/-- `B[o]` as an integer. A byte past the end reads 0; no operation reads one when the parameters are legal (log 13). -/
def byteAt (B : List Byte) (o : Nat) : Nat := (B.getD o 0).toNat

/-- `le16(B, o)`. -/
def le16 (B : List Byte) (o : Nat) : Nat := byteAt B o + 256 * byteAt B (o + 1)

/-- `le32(B, o)`. -/
def le32 (B : List Byte) (o : Nat) : Nat :=
  byteAt B o + 256 * byteAt B (o + 1) + 65536 * byteAt B (o + 2) + 16777216 * byteAt B (o + 3)

/-- `bytes16(v)`. -/
def bytes16 (v : Nat) : List Byte := [BitVec.ofNat 8 v, BitVec.ofNat 8 (v / 256)]

/-- `asciiz(B, a, b)` (R12): the bytes of `B[a..b]` before the first NUL, all of them when there is none. -/
def asciiz (B : List Byte) (a b : Nat) : List Byte := ((B.drop a).take (b - a)).takeWhile fun c => c != 0

/-! ### The checksum -/

/-- The running sum of R84 and R85 from `sum` on: little-endian words modulo 65535, then an odd last byte as it is. -/
def wordSum : List Byte → Nat → Nat
  | lo :: hi :: rest, sum => wordSum rest ((sum + lo.toNat + 256 * hi.toNat) % 65535)
  | [last], sum => sum + last.toNat
  | [], sum => sum

/-- `checksum(B)` (R86). -/
def checksum (B : List Byte) : Nat := (65535 - wordSum B 0 % 65535 - 1) % 65535

/-! ### Timestamps -/

/-- `decode_int(v)` (R99): the month is 1-indexed. -/
def decodeInt (v : Nat) : Civil :=
  let v1 := v / 60
  let v2 := v1 / 60
  let v3 := v2 / 24
  let v4 := v3 / 31
  let v5 := v4 / 12
  { year := v5 + 2000, month := v4 % 12 + 1, day := v3 % 31 + 1, hour := (v2 % 24 : Nat), minute := (v1 % 60 : Nat),
    second := (v % 60 : Nat) }

/-- `encode_int` (R101): exact, on unbounded integers; the month is 1-indexed. -/
def encodeInt (t : Civil) : Int :=
  (((t.year - 2000) * 12 + (t.month - 1)) * 31 + (t.day - 1)) * 86400 + (t.hour * 60 + t.minute) * 60 + t.second

/-- `decode_hex(B, o)` (R104): the month is 0-indexed, so it is -1 for a month byte of 0. -/
def decodeHex (B : List Byte) (o : Nat) : Civil :=
  { year := 2000 + byteAt B o, month := (byteAt B (o + 1) : Int) - 1, day := byteAt B (o + 2), hour := byteAt B (o + 3),
    minute := byteAt B (o + 4), second := byteAt B (o + 5) }

/-- A timestamp as the bank holds it: each field modulo 2^32 (R31, R104). -/
def Civil.bank (t : Civil) : Timestamp :=
  { year := BitVec.ofInt 32 t.year, month := BitVec.ofInt 32 t.month, day := BitVec.ofInt 32 t.day,
    hour := BitVec.ofInt 32 t.hour, minute := BitVec.ofInt 32 t.minute, second := BitVec.ofInt 32 t.second }

/-- The bank read as signed (R7 `signed32`, R102). -/
def Timestamp.civil (t : Timestamp) : Civil :=
  { year := t.year.toInt, month := t.month.toInt, day := t.day.toInt, hour := t.hour.toInt, minute := t.minute.toInt,
    second := t.second.toInt }

/-- What an operation that decodes a timestamp writes: the bank and its month convention (R32, R98). -/
def State.setTime (s : State) (t : Civil) (conv : MonthConv) : State := { s with ts := t.bank, tsConv := conv }

/-- What CSUM and TS_ENCODE_INT write (R27). -/
def State.setResult (s : State) (v : Word) : State := { s with result := v }

end Sys2Proof.Machine
end

