-- ==== Sys2Proof/Machine/FrameCodec.lean ====
section
/-! DEFINITION. The frame codec operations CSUM, ENCODE, DECODE (spec/41_frame_codec.md). -/

namespace Sys2Proof.Machine

/-! ### Wire formats -/

/-- The 8-byte frame header (R67). -/
def headerBytes (h : Header) : List Byte :=
  bytes16 h.cmd.toNat ++ bytes16 h.csum.toNat ++ bytes16 h.sid.toNat ++ bytes16 h.rid.toNat

/-- The magic bytes of the stream envelope (R69). -/
def magic : List Byte := [0x50, 0x50, 0x82, 0x7D]

/-- The 8-byte stream envelope with inner length `inner` (R69). -/
def envelopeBytes (inner : Nat) : List Byte := magic ++ bytes16 inner ++ [0x00, 0x00]

/-! ### CSUM -/

/-- CSUM (R87). -/
def execCsum (s : State) : Host.Outcome State Fault Refusal :=
  .next <|
    if !s.sliceInBounds then s.raiseError .bounds .clear
    else (s.setResult (BitVec.ofNat 32 (checksum s.slice))).completeOk .clear

/-! ### ENCODE -/

/-- `check_encode_length(n)` fails (R91): the frame would not fit `OBUF` or the u16 inner length. -/
def State.encodeTooLong (s : State) : Bool :=
  let n := s.ilen.toNat
  if s.ctrl.stream then decide (s.cfg.bufBytes < 16 + n) || decide (65535 < 8 + n) else decide (s.cfg.bufBytes < 8 + n)

/-- The checksum ENCODE puts into the header: over the header with a zero checksum field and the payload (R89, R90). -/
def encodeChecksum (h : Header) (payload : List Byte) : Nat := checksum (headerBytes { h with csum := 0 } ++ payload)

/-- The bytes ENCODE sends (R89). -/
def encodeOutput (stream : Bool) (h : Header) (payload : List Byte) : List Byte :=
  let frame := headerBytes { h with csum := BitVec.ofNat 16 (encodeChecksum h payload) } ++ payload
  if stream then envelopeBytes (8 + payload.length) ++ frame else frame

/-- The inner length ENCODE reports in `ENV_LEN`: 0 without an envelope (R30, R89). -/
def encodeEnvLen (stream : Bool) (payload : List Byte) : Half :=
  if stream then BitVec.ofNat 16 (8 + payload.length) else 0

/-- The writes of a successful ENCODE outside `STATUS` (R43). -/
def State.commitEncode (s : State) (out : List Byte) (c envLen : Half) : State :=
  { s with
    obuf := writeBytes s.obuf 0 out
    olen := BitVec.ofNat 32 out.length
    hdr := { s.hdr with csum := c }
    envLen := envLen
    result := c.setWidth 32 }

/-- The state after a successful ENCODE (R89). -/
def State.encoded (s : State) : State :=
  (s.commitEncode (encodeOutput s.ctrl.stream s.hdr s.slice) (BitVec.ofNat 16 (encodeChecksum s.hdr s.slice))
    (encodeEnvLen s.ctrl.stream s.slice)).completeOk .clear

/-- ENCODE (R89). -/
def execEncode (s : State) : Host.Outcome State Fault Refusal :=
  .next <|
    if !s.sliceInBounds then s.raiseError .bounds .clear
    else if s.encodeTooLong then s.raiseError .lengthOverflow .clear
    else s.encoded

/-! ### DECODE -/

/-- The envelope is present: stream transport, at least four bytes, and they are the magic (R70, R93). -/
def hasEnvelope (stream : Bool) (S : List Byte) : Bool := stream && decide (4 ≤ S.length) && S.take 4 == magic

/-- The frame is too short (R93, R126 (a) and (b)). -/
def frameTooShort (env : Bool) (S : List Byte) : Bool := decide (S.length < if env then 16 else 8)

/-- The frame's bytes with the checksum field set to 0 (R93). -/
def zeroChecksumField (F : List Byte) : List Byte := F.take 2 ++ [0x00, 0x00] ++ F.drop 4

/-- What DECODE reads out of a slice that is long enough (R93, R94). -/
def viewFrame (env : Bool) (S : List Byte) : FrameView :=
  let F := if env then S.drop 8 else S
  let computed := checksum (zeroChecksumField F)
  { flags :=
      { envPresent := env
        csumMismatch := decide (computed ≠ le16 F 2)
        lenMismatch := env && decide (le16 S 4 ≠ S.length - 8)
        rsvNonzero := env && (decide (byteAt S 6 ≠ 0) || decide (byteAt S 7 ≠ 0)) }
    hdr :=
      { cmd := BitVec.ofNat 16 (le16 F 0), csum := BitVec.ofNat 16 (le16 F 2), sid := BitVec.ofNat 16 (le16 F 4),
        rid := BitVec.ofNat 16 (le16 F 6) }
    payload := F.drop 8
    envLen := BitVec.ofNat 16 (if env then le16 S 4 else 0)
    computed := BitVec.ofNat 16 computed }

/-- What DECODE reads out of the slice, its envelope found as R70 says. -/
def State.frameView (s : State) : FrameView := viewFrame (hasEnvelope s.ctrl.stream s.slice) s.slice

/-- The writes of a successful DECODE outside `STATUS` (R43). -/
def State.commitDecode (s : State) (v : FrameView) : State :=
  { s with
    hdr := v.hdr
    obuf := writeBytes s.obuf 0 v.payload
    olen := BitVec.ofNat 32 v.payload.length
    envLen := v.envLen
    result := v.computed.setWidth 32 }

/-- DECODE (R93), its errors in the order of R132. -/
def execDecode (s : State) : Host.Outcome State Fault Refusal :=
  .next <|
    if !s.sliceInBounds then s.raiseError .bounds .clear
    else
      let env := hasEnvelope s.ctrl.stream s.slice
      if frameTooShort env s.slice then s.raiseError .malformedFrame { DecodeFlags.clear with envPresent := env }
      else
        let v := s.frameView
        let s1 := s.noteMismatch v.flags.csumMismatch
        if s.ctrl.strict && v.flags.lenMismatch then s1.raiseError .malformedFrame v.flags
        else if s.ctrl.strict && v.flags.csumMismatch then s1.raiseError .checksumMismatch v.flags
        else (s1.commitDecode v).completeOk v.flags

end Sys2Proof.Machine
end

