-- ==== Sys2Proof/Machine/RecordParser.lean ====
section
/-! DEFINITION. The record parser operations PARSE_* (spec/43_record_parser.md): one layout function each over the common begin and end of R110. -/

namespace Sys2Proof.Machine

/-- `parse_end` (R110): the whole record bank, and the timestamp bank when the layout has a timestamp. -/
def State.commitParse (s : State) (p : Parsed) : State :=
  let s1 := { s with recd := { p.recd with hasTime := p.time.isSome } }
  match p.time with
  | some (t, conv) => s1.setTime t conv
  | none => s1

/-- `parse_begin(width)`, the layout's fields, `parse_end` (R110). -/
def State.parse (s : State) (width : Nat) (layout : List Byte → Parsed) : State :=
  if !s.sliceInBounds then s.raiseError .bounds .clear
  else if decide (s.ilen.toNat < width) then s.raiseError .decodeError .clear
  else (s.commitParse (layout s.slice)).completeOk .clear

/-- User (short), 28 bytes (R72, R111). -/
def layoutUserS (S : List Byte) : Parsed :=
  { recd :=
      { Record.empty with
        kind := some .userS
        uid := some (BitVec.ofNat 16 (le16 S 0))
        role := some (BitVec.ofNat 8 (byteAt S 2))
        name := some (asciiz S 8 16)
        useridNum := some (BitVec.ofNat 32 (le32 S 24)) }
    time := none }

/-- User (long), 72 bytes (R72, R112). -/
def layoutUserL (S : List Byte) : Parsed :=
  { recd :=
      { Record.empty with
        kind := some .userL
        uid := some (BitVec.ofNat 16 (le16 S 0))
        role := some (BitVec.ofNat 8 (byteAt S 2))
        password := some (asciiz S 3 11)
        name := some (asciiz S 11 35)
        card := some (BitVec.ofNat 32 (le32 S 35))
        useridStr := some (asciiz S 48 57) }
    time := none }

/-- Attendance (short), 16 bytes (R72, R113). -/
def layoutAttS (S : List Byte) : Parsed :=
  { recd := { Record.empty with kind := some .attS, useridNum := some (BitVec.ofNat 32 (le16 S 0)) }
    time := some (decodeInt (le32 S 4), .oneIndexed) }

/-- Attendance (long), 40 bytes (R72, R114). -/
def layoutAttL (S : List Byte) : Parsed :=
  { recd :=
      { Record.empty with
        kind := some .attL
        userSn := some (BitVec.ofNat 16 (le16 S 0))
        useridStr := some (asciiz S 2 11) }
    time := some (decodeInt (le32 S 27), .oneIndexed) }

/-- Real-time event (short), 18 bytes (R72, R115). -/
def layoutRtS (S : List Byte) : Parsed :=
  { recd := { Record.empty with kind := some .rtS, useridNum := some (BitVec.ofNat 32 (byteAt S 8)) }
    time := some (decodeHex S 12, .zeroIndexed) }

/-- Real-time event (long), 52 bytes: the envelope and the header are stripped unchecked (R72, R73, R116). -/
def layoutRtL (S : List Byte) : Parsed :=
  let T := S.drop 16
  { recd := { Record.empty with kind := some .rtL, useridStr := some (asciiz T 0 9) }
    time := some (decodeHex T 26, .zeroIndexed) }

/-- DeviceInfo, at the offsets the parameters give (R75, R117). -/
def layoutDevinfo (p : Params) (S : List Byte) : Parsed :=
  { recd :=
      { Record.empty with
        kind := some .devinfo
        devUsers := some (BitVec.ofNat 32 (le32 S p.devOffUsers))
        devLogs := some (BitVec.ofNat 32 (le32 S p.devOffLogs))
        devCap := some (BitVec.ofNat 32 (le32 S p.devOffCap)) }
    time := none }

/-- PARSE_USER_S (R111). -/
def execParseUserS (s : State) : Host.Outcome State Fault Refusal := .next (s.parse 28 layoutUserS)

/-- PARSE_USER_L (R112). -/
def execParseUserL (s : State) : Host.Outcome State Fault Refusal := .next (s.parse 72 layoutUserL)

/-- PARSE_ATT_S (R113). -/
def execParseAttS (s : State) : Host.Outcome State Fault Refusal := .next (s.parse 16 layoutAttS)

/-- PARSE_ATT_L (R114). -/
def execParseAttL (s : State) : Host.Outcome State Fault Refusal := .next (s.parse 40 layoutAttL)

/-- PARSE_RT_S (R115). -/
def execParseRtS (s : State) : Host.Outcome State Fault Refusal := .next (s.parse 18 layoutRtS)

/-- PARSE_RT_L (R116). -/
def execParseRtL (s : State) : Host.Outcome State Fault Refusal := .next (s.parse 52 layoutRtL)

/-- PARSE_DEVINFO (R117). -/
def execParseDevinfo (s : State) : Host.Outcome State Fault Refusal :=
  .next (s.parse s.cfg.devWidth (layoutDevinfo s.cfg))

end Sys2Proof.Machine
end

