-- ==== Sys2Proof/Machine/Timestamps.lean ====
section
/-! DEFINITION. The timestamp operations TS_DECODE_INT, TS_ENCODE_INT, TS_DECODE_HEX (spec/42_timestamp.md). -/

namespace Sys2Proof.Machine

/-- TS_DECODE_INT (R100): no bounds check, no error. -/
def execTsDecodeInt (s : State) : Host.Outcome State Fault Refusal :=
  .next ((s.setTime (decodeInt s.arg.toNat) .oneIndexed).completeOk .clear)

/-- TS_ENCODE_INT (R102): `RANGE` when the exact value is no u32. -/
def execTsEncodeInt (s : State) : Host.Outcome State Fault Refusal :=
  .next <|
    let r := encodeInt s.ts.civil
    if decide (r < 0) || decide (2 ^ 32 ≤ r) then s.raiseError .range .clear
    else (s.setResult (BitVec.ofNat 32 r.toNat)).completeOk .clear

/-- TS_DECODE_HEX (R104). -/
def execTsDecodeHex (s : State) : Host.Outcome State Fault Refusal :=
  .next <|
    if !s.sliceInBounds then s.raiseError .bounds .clear
    else if decide (s.ilen.toNat < 6) then s.raiseError .decodeError .clear
    else (s.setTime (decodeHex s.slice 0) .zeroIndexed).completeOk .clear

end Sys2Proof.Machine
end

