-- ==== Sys2Proof/Machine/Dispatch.lean ====
section
/-! DEFINITION. The meaning of each operation: what its completion does to the state (R139). -/

namespace Sys2Proof.Machine

def exec (i : Instr) (s : State) : Host.Outcome State Fault Refusal :=
  match i with
  | .csum => Sys2Proof.Machine.execCsum s
  | .encode => Sys2Proof.Machine.execEncode s
  | .decode => Sys2Proof.Machine.execDecode s
  | .parseUserS => Sys2Proof.Machine.execParseUserS s
  | .parseUserL => Sys2Proof.Machine.execParseUserL s
  | .parseAttS => Sys2Proof.Machine.execParseAttS s
  | .parseAttL => Sys2Proof.Machine.execParseAttL s
  | .parseRtS => Sys2Proof.Machine.execParseRtS s
  | .parseRtL => Sys2Proof.Machine.execParseRtL s
  | .parseDevinfo => Sys2Proof.Machine.execParseDevinfo s
  | .tsDecodeInt => Sys2Proof.Machine.execTsDecodeInt s
  | .tsEncodeInt => Sys2Proof.Machine.execTsEncodeInt s
  | .tsDecodeHex => Sys2Proof.Machine.execTsDecodeHex s

end Sys2Proof.Machine
end

