-- ==== Sys2Proof/Machine/Bus.lean ====
section
/-! DEFINITION. The host bus (spec/20_memory.md): which accesses are admitted, what they read and what they write. -/

namespace Sys2Proof.Machine

/-- The address of an access. -/
def BusOp.addr : BusOp → Nat
  | .read a _ => a
  | .write a _ _ => a

/-- The width of an access in bytes. -/
def BusOp.width : BusOp → Nat
  | .read _ n => n
  | .write _ n _ => n

/-- A buffer access of `n` bytes at index `i` is admitted: 1, 2 or 4 bytes, aligned, inside the buffer (R50, R51). -/
def bufAdmits (p : Params) (i n : Nat) : Bool :=
  (decide (n = 1) || decide (n = 2) || decide (n = 4)) && decide (i % n = 0) && decide (i + n ≤ p.bufBytes)

/-- What an access of `n` bytes at `addr` reaches; none where R44, R46, R50 or R51 does not admit it. -/
def busTarget (p : Params) (addr n : Nat) : Option Target :=
  let a := addr - p.base
  if addr < p.base then none
  else if a < 0x1000 then
    if n = 4 ∧ a % 4 = 0 then (regAt a).map .reg else none
  else if 0x10000 ≤ a ∧ a < 0x20000 then
    if bufAdmits p (a - 0x10000) n then some (.inBuf (a - 0x10000) n) else none
  else if 0x20000 ≤ a ∧ a < 0x30000 then
    if bufAdmits p (a - 0x20000) n then some (.outBuf (a - 0x20000) n) else none
  else none

/-- A little-endian number from its bytes (R49). -/
def leNat : List Byte → Nat
  | [] => 0
  | b :: bs => b.toNat + 256 * leNat bs

/-- What a read of the target returns, zero-extended to 32 bits (R49, R50, log 17). -/
def State.readTarget (s : State) : Target → Word
  | .reg r => s.readReg r
  | .inBuf i n => BitVec.ofNat 32 (leNat ((List.range n).map fun k => s.ibufByte (i + k)))
  | .outBuf i n => BitVec.ofNat 32 (leNat ((List.range n).map fun k => s.obufByte (i + k)))

/-- The state after a write of `v` to the target: byte `k` is bits `8k+7 : 8k` (R49); a write to the output window is ignored
(R50). -/
def State.writeTarget (s : State) (v : Word) : Target → State
  | .reg r => s.writeReg v r
  | .inBuf i n => { s with ibuf := writeBytes s.ibuf i ((List.range n).map fun k => v.extractLsb' (8 * k) 8) }
  | .outBuf _ _ => s

/-- The one access admitted while an operation is pending (R145). -/
def isStatusRead (p : Params) (op : BusOp) : Bool := op == .read (p.base + Reg.offset .status) 4

/-- One bus access: the state after it and, for a read, the value returned (R52, R53, R54, R145). -/
def State.bus (s : State) (op : BusOp) : Except Fault (State × Word) :=
  if s.status.busy && !isStatusRead s.cfg op then .error (.hostHazard op)
  else
    match busTarget s.cfg op.addr op.width with
    | none => .error (.busError op)
    | some t =>
      match op with
      | .read _ _ => .ok (s, s.readTarget t)
      | .write _ _ v => .ok (s.writeTarget v t, 0)

end Sys2Proof.Machine
end

