-- ==== Sys2Proof/Machine/Driver.lean ====
section
/-! DEFINITION. The host agent's turn: one statement of its program, or one byte of a `wrb` or `rdb` (R79), and the pseudo statements of R80. -/

namespace Sys2Proof.Machine

/-- How many bus accesses a statement makes (R79). -/
def Stmt.accesses : Stmt → Nat
  | .memRead _ _ _ | .memWrite _ _ _ | .wr32 _ _ | .rd32 _ _ => 1
  | .wrb _ bs => bs.length
  | .rdbIn _ n _ | .rdbOut _ n _ => n
  | .label _ | .bnz _ _ _ => 0

/-- The statement's access number `sub`, counted from 0 (R79). -/
def Stmt.access (base sub : Nat) : Stmt → Option BusOp
  | .memRead a n _ => some (.read a n)
  | .memWrite a n v => some (.write a n v)
  | .wr32 r v => some (.write (base + r.offset) 4 v)
  | .rd32 r _ => some (.read (base + r.offset) 4)
  | .wrb i bs => bs[sub]?.map fun b => .write (base + 0x10000 + i + sub) 1 (b.setWidth 32)
  | .rdbIn i n _ => if sub < n then some (.read (base + 0x10000 + i + sub) 1) else none
  | .rdbOut i n _ => if sub < n then some (.read (base + 0x20000 + i + sub) 1) else none
  | .label _ | .bnz _ _ _ => none

/-- The bytes an `rdb` has read so far. -/
def bytesSoFar (sub : Nat) (old : Option Value) : List Byte :=
  match sub, old with
  | _ + 1, some (.bytes bs) => bs
  | _, _ => []

/-- The host variables after the statement's access number `sub` returned `v`. -/
def Stmt.store (sub : Nat) (v : Word) (vars : List (Nat × Value)) : Stmt → List (Nat × Value)
  | .memRead _ _ x | .rd32 _ x => assocSet x (.word v) vars
  | .rdbIn _ _ x | .rdbOut _ _ x => assocSet x (.bytes (bytesSoFar sub (assocGet x vars) ++ [v.setWidth 8])) vars
  | .memWrite _ _ _ | .wr32 _ _ | .wrb _ _ | .label _ | .bnz _ _ _ => vars

/-- The host variables after a statement that makes no access: an `rdb` of no bytes gives the empty string. -/
def Stmt.storeNone (vars : List (Nat × Value)) : Stmt → List (Nat × Value)
  | .rdbIn _ _ x | .rdbOut _ _ x => assocSet x (.bytes []) vars
  | .memRead _ _ _ | .memWrite _ _ _ | .wr32 _ _ | .rd32 _ _ | .wrb _ _ | .label _ | .bnz _ _ _ => vars

/-- The agent past its statement. -/
def HostAgent.past (h : HostAgent) : HostAgent := { h with pos := h.pos + 1, sub := 0 }

/-- The agent after one access of its statement: at the next byte, or past the statement. -/
def HostAgent.after (h : HostAgent) (st : Stmt) (v : Word) : HostAgent :=
  let h1 := { h with vars := st.store h.sub v h.vars }
  if h.sub + 1 < st.accesses then { h1 with sub := h.sub + 1 } else h1.past

/-- A variable as the 32 bits `bnz` masks: a read value, or an `rdb` string as a little-endian number; a variable nothing has
assigned is a free value (log 7). -/
def HostAgent.value (h : HostAgent) (x : Nat) : Word :=
  match assocGet x h.vars with
  | some (.word w) => w
  | some (.bytes bs) => BitVec.ofNat 32 (leNat bs)
  | none => Config.unassigned x

/-- Where a label stands: its first place in the program (log 8). -/
def HostAgent.labelPos (h : HostAgent) (l : Nat) : Option Nat := h.prog.findIdx? fun st => st == .label l

/-- The state with the host agent `h`. -/
def State.withHost (s : State) (h : HostAgent) : State := { s with host := h }

/-- A `bnz` (R79): branch when `x AND mask != 0`. -/
def State.branch (s : State) (x : Nat) (mask : Word) (l : Nat) : Host.Outcome State Fault Refusal :=
  if s.host.value x &&& mask = 0 then .next (s.withHost s.host.past)
  else
    match s.host.labelPos l with
    | some p => .next (s.withHost { s.host with pos := p, sub := 0 })
    | none => .refused (.undefinedLabel l)

/-- A statement other than `bnz`: its next bus access, or none. -/
def State.perform (s : State) (st : Stmt) : Host.Outcome State Fault Refusal :=
  match st.access s.cfg.base s.host.sub with
  | none => .next (s.withHost { s.host.past with vars := st.storeNone s.host.vars })
  | some op =>
    match s.bus op with
    | .error f => .fault f
    | .ok (s1, v) => .next (s1.withHost (s.host.after st v))

/-- The host's turn; past the end of its program it does nothing (log 15). -/
def State.hostTurn (s : State) : Host.Outcome State Fault Refusal :=
  match s.host.prog[s.host.pos]? with
  | none => .next s
  | some (.bnz x mask l) => s.branch x mask l
  | some st => s.perform st

/-! ### Pseudo statements (R80); `t` is a fresh variable and `l` a fresh label -/

/-- `go MNEMONIC`. -/
def Pseudo.go (i : Instr) : List Stmt := [.wr32 .op (Sys2Proof.encode i)]

/-- `wait`: poll until `BUSY = 0`. -/
def Pseudo.wait (t l : Nat) : List Stmt := [.label l, .rd32 .status t, .bnz t 0x200 l]

/-- `run MNEMONIC`. -/
def Pseudo.run (i : Instr) (t l : Nat) : List Stmt := Pseudo.go i ++ Pseudo.wait t l

/-- `clrsticky`. -/
def Pseudo.clrsticky : List Stmt := [.wr32 .status 0x00010000]

/-- `setmode stream, strict`. -/
def Pseudo.setmode (stream strict : Bool) : List Stmt := [.wr32 .ctrl (Ctrl.word { stream := stream, strict := strict })]

/-- `slice off, len`. -/
def Pseudo.slice (off len : Word) : List Stmt := [.wr32 .ioff off, .wr32 .ilen len]

/-- The slice of record `i` of a list of width `w` that begins at `base` with its 4-byte count (R119). -/
def Pseudo.listRecord (base w i : Nat) : List Stmt := Pseudo.slice (BitVec.ofNat 32 (base + 4 + i * w)) (BitVec.ofNat 32 w)

end Sys2Proof.Machine
end

