-- ==== Sys2Proof/Machine/Turns.lean ====
section
/-! DEFINITION. Whose turn it is, and the engine's step (R139). -/

namespace Sys2Proof.Machine

/-- Completion of the pending value `w` (R139): the rule of its operation, or ILLEGAL_OP. -/
def State.complete (s : State) (w : Word) : Host.Outcome State Fault Refusal :=
  match Sys2Proof.decode w with
  | .ok i => exec i s
  | .error _ => .next s.illegalOp

/-- The engine's turn: completion when an operation is pending, otherwise not enabled and nothing happens (R139, log 15). -/
def State.engineTurn (s : State) : Host.Outcome State Fault Refusal :=
  match s.pending with
  | some w => s.complete w
  | none => .next s

/-- One turn of the agent `turn`. -/
def State.takeTurn (s : State) : Turn → Host.Outcome State Fault Refusal
  | .host => s.hostTurn
  | .engine => s.engineTurn
  | .reset => .next s.assertReset

/-- The next turn, and the state with that turn used up: the head of `turns`; when the list is used up, the host, but for the
completion of a pending operation after its free number of host turns (log 1). -/
def State.nextTurn (s : State) : Turn × State :=
  match s.turns with
  | t :: rest => (t, { s with turns := rest })
  | [] =>
    if s.pending.isNone then (.host, s)
    else if s.delay = 0 then (.engine, s)
    else (.host, { s with delay := s.delay - 1 })

/-- The run of the host's program is over (R150): no next statement and nothing pending. (That no host fault has occurred is
that the run is still going.) -/
def State.runOver (s : State) : Bool := decide (s.host.prog.length ≤ s.host.pos) && s.pending.isNone

/-- The fetch of an operation word: the engine takes `w` next. It is what a host's `OP` write leaves (R23), with the next turn
the engine's. -/
def State.withPending (s : State) (w : Word) : State := { s.startOp w with turns := .engine :: s.turns }

end Sys2Proof.Machine
end

