-- ==== Sys2Proof/Machine/Step.lean ====
section
/-! DEFINITION. One step of the machine: one turn of one agent. -/

namespace Sys2Proof.Machine

/-- One step (R5, R53, R139, R140): the agent whose turn it is makes one bus access, completes the pending operation, or the
reset input is asserted. -/
def step (s : State) : Host.Outcome State Fault Refusal := s.nextTurn.2.takeTurn s.nextTurn.1

/-- The state in which the very next step completes the operation word whose table bits are `w`: it is the pending value and the
next turn is the engine's (log 14). -/
def State.withFetchWord (s : State) (nbits w : Nat) : State := s.withPending (BitVec.ofNat 32 (w % 2 ^ nbits))

end Sys2Proof.Machine
end

