-- ==== Sys2Proof/WellFormed.lean ====
section
/-! DEFINITION. What is well formed. An operation has no operands, so every one is (R64); a register name of a string window, a statement and a host program have checks (R79). -/

namespace Sys2Proof

/-- An operation word has no register or immediate fields, so every operation is well formed (R64). -/
def Instr.wf (_ : Instr) : Bool := true

namespace Machine

/-- A register name: a word of a string window is at a multiple of 4 inside the window (R79). -/
def Reg.wf : Reg → Bool
  | .recPassword k => decide (k % 4 = 0) && decide (k < 8)
  | .recName k => decide (k % 4 = 0) && decide (k < 24)
  | .recUserid k => decide (k % 4 = 0) && decide (k < 12)
  | _ => true

/-- The labels of a program. -/
def labelsOf (prog : List Stmt) : List Nat :=
  prog.filterMap fun st =>
    match st with
    | .label l => some l
    | _ => none

/-- A statement in a program with the labels `ls` (R79): its register name is well formed, a `wrb` writes at least one byte, a
`bnz` names a label of the program. -/
def Stmt.wf (ls : List Nat) : Stmt → Bool
  | .wr32 r _ => r.wf
  | .rd32 r _ => r.wf
  | .wrb _ bs => !bs.isEmpty
  | .bnz _ _ l => ls.contains l
  | .memRead _ _ _ | .memWrite _ _ _ | .rdbIn _ _ _ | .rdbOut _ _ _ | .label _ => true

/-- A host program: every statement is well formed and no label stands twice. -/
def programWf (prog : List Stmt) : Bool :=
  prog.all (fun st => st.wf (labelsOf prog)) && decide (labelsOf prog).Nodup

end Machine

end Sys2Proof
end

