-- ==== Sys2Proof/Safety.lean ====
section
/-! DEFINITION. What claims are stated in: the invariant of the machine, when a run is over (R150), and which states a run reaches. -/

namespace Sys2Proof.Machine

/-- A string of the record bank fits its field and holds no NUL (R12, R37). -/
def stringOk (width : Nat) (str : Option (List Byte)) : Prop :=
  ∀ bs, str = some bs → bs.length ≤ width ∧ ∀ b ∈ bs, b ≠ 0

/-- The record bank: strings within their windows (R37), and nothing set before the first parse (R33). -/
structure Record.Ok (r : Record) : Prop where
  password : stringOk 8 r.password
  name : stringOk 24 r.name
  useridStr : stringOk 9 r.useridStr
  unparsed : r.kind = none → r = Record.empty

/-- The invariant of the machine. -/
structure State.Inv (s : State) : Prop where
  /-- R6, R45: the parameters are legal. -/
  params : s.cfg.legal = true
  /-- The buffers are in canonical form and inside `BUF_BYTES` (R39, R40). -/
  ibuf : Memory.wf s.cfg.bufBytes s.ibuf
  obuf : Memory.wf s.cfg.bufBytes s.obuf
  /-- R41: `STATUS.BUSY = 1` exactly when an operation is pending. -/
  busy : s.status.busy = s.pending.isSome
  /-- R23, R41: the pending operation is the word last written to `OP`. -/
  pending : ∀ w, s.pending = some w → s.op = w
  /-- R21: `DONE` and `BUSY` are never both 1. -/
  done : s.status.busy = true → s.status.done = false
  /-- R25, R40: the valid output lies inside `OBUF`. -/
  olen : s.olen.toNat ≤ s.cfg.bufBytes
  /-- R33 to R37. -/
  recd : s.recd.Ok
  /-- The host variables are in canonical form. -/
  vars : Rising s.host.vars

/-- A run leads from `s` to `t`: some number of steps, each answering a next state. -/
inductive Reaches : State → State → Prop
  | refl (s : State) : Reaches s s
  | step {s t u : State} : Reaches s t → step t = .next u → Reaches s u

/-- A run of the host program that is in `s` ends well in `t` (R150): it comes to `t` without a fault, and there the program has
no next statement and nothing is pending. -/
def EndsWell (s t : State) : Prop := Reaches s t ∧ t.runOver = true

/-! ### The words claims are written in -/

/-- Byte `k` of the slice, `S[k]`, as an integer (R11). -/
def State.sliceByte (s : State) (k : Nat) : Nat := (s.ibufByte (s.ioff.toNat + k)).toNat

/-- The slice lies in the input buffer: `IOFF + ILEN <= BUF_BYTES` (R82). -/
def State.SliceFits (s : State) : Prop := s.ioff.toNat + s.ilen.toNat ≤ s.cfg.bufBytes

/-- The sum of R84 and R85 before it is reduced: the little-endian words of `B`, and its last byte when its length is odd. -/
def wordTotal (B : List Byte) : Nat :=
  ((List.range (B.length / 2)).map fun j => byteAt B (2 * j) + 256 * byteAt B (2 * j + 1)).sum
    + if B.length % 2 = 1 then byteAt B (B.length - 1) else 0

/-- `t` is `s` after a successful completion with flags `fl`, as far as `STATUS` and `pending` go (R124); `CSUM_STICKY` is kept. -/
def Succeeds (s t : State) (fl : DecodeFlags) : Prop :=
  t.status = { err := .ok, done := true, busy := false, flags := fl, csumSticky := s.status.csumSticky } ∧ t.pending = none

/-- `t` is `s` after a failed completion: only `STATUS` and `pending` are written (R124). -/
def FailsWith (s t : State) (e : Err) (fl : DecodeFlags) : Prop :=
  t = { s with
        status := { err := e, done := true, busy := false, flags := fl, csumSticky := s.status.csumSticky }
        pending := none }

/-- `bs` is `asciiz(B, a, e)` for the bytes `B` (R12): the bytes from `a` on up to the first NUL, or up to `e`. -/
def IsText (B : Nat → Nat) (a e : Nat) (bs : List Byte) : Prop :=
  a + bs.length ≤ e ∧ (∀ k, k < bs.length → byteAt bs k = B (a + k) ∧ B (a + k) ≠ 0)
    ∧ (a + bs.length < e → B (a + bs.length) = 0)

/-- `t` holds the integer time `v` in mixed radix, with a 1-indexed month (R76, R99). -/
def IntTime (v : Nat) (t : Timestamp) : Prop :=
  t.year.toNat = v / 32140800 + 2000 ∧ t.month.toNat = v / 2678400 % 12 + 1 ∧ t.day.toNat = v / 86400 % 31 + 1
    ∧ t.hour.toNat = v / 3600 % 24 ∧ t.minute.toNat = v / 60 % 60 ∧ t.second.toNat = v % 60

/-- `t` holds the six bytes `B[o .. o+6]` as a time with a 0-indexed month, read as signed (R77, R104). -/
def HexTime (B : Nat → Nat) (o : Nat) (t : Timestamp) : Prop :=
  t.year.toInt = 2000 + B o ∧ t.month.toInt = (B (o + 1) : Int) - 1 ∧ t.day.toInt = B (o + 2) ∧ t.hour.toInt = B (o + 3)
    ∧ t.minute.toInt = B (o + 4) ∧ t.second.toInt = B (o + 5)

/-- A little-endian u16 of the bytes `B` (R9). -/
def u16At (B : Nat → Nat) (o : Nat) : Nat := B o + 256 * B (o + 1)

/-- A little-endian u32 of the bytes `B` (R9). -/
def u32At (B : Nat → Nat) (o : Nat) : Nat := B o + 256 * B (o + 1) + 65536 * B (o + 2) + 16777216 * B (o + 3)

/-- Byte `k` of `OBUF` as an integer. -/
def State.outByte (s : State) (k : Nat) : Nat := (s.obufByte k).toNat

/-- The slice begins with the stream envelope, and the transport is stream (R70). -/
def State.EnvFound (s : State) : Prop :=
  s.ctrl.stream = true ∧ 4 ≤ s.ilen.toNat ∧ s.sliceByte 0 = 0x50 ∧ s.sliceByte 1 = 0x50 ∧ s.sliceByte 2 = 0x82
    ∧ s.sliceByte 3 = 0x7D

/-- Where the frame begins in the slice: behind the envelope when there is one (R69). -/
def frameAt (env : Bool) : Nat := if env then 8 else 0

/-- The checksum of the received frame with its checksum field read as 0 (R93). -/
def State.receivedChecksum (s : State) (env : Bool) : Nat :=
  checksum ((List.range (s.ilen.toNat - frameAt env)).map fun k =>
    if k = 2 ∨ k = 3 then 0 else s.ibufByte (s.ioff.toNat + (frameAt env + k)))

/-- The flags of a DECODE that reached every test (R94). -/
def State.frameFlags (s : State) (env : Bool) : DecodeFlags :=
  { envPresent := env
    csumMismatch := decide (s.receivedChecksum env ≠ u16At s.sliceByte (frameAt env + 2))
    lenMismatch := env && decide (u16At s.sliceByte 4 ≠ s.ilen.toNat - 8)
    rsvNonzero := env && decide (s.sliceByte 6 ≠ 0 ∨ s.sliceByte 7 ≠ 0) }

/-- The checksum of the frame ENCODE builds, over the header it sends with a zero checksum field and the payload (R89, R90). -/
def State.sentChecksum (s : State) : Nat :=
  checksum ([s.hdr.cmd.toNat % 256, s.hdr.cmd.toNat / 256, 0, 0, s.hdr.sid.toNat % 256, s.hdr.sid.toNat / 256,
    s.hdr.rid.toNat % 256, s.hdr.rid.toNat / 256].map (BitVec.ofNat 8) ++ s.slice)

/-- The frame ENCODE would build fits `OBUF` and the u16 inner length (R91). -/
def State.FrameFits (s : State) : Prop :=
  if s.ctrl.stream then 16 + s.ilen.toNat ≤ s.cfg.bufBytes ∧ 8 + s.ilen.toNat ≤ 65535
  else 8 + s.ilen.toNat ≤ s.cfg.bufBytes

/-- The width an operation needs of its slice: the layout width (R72, R75), or 6 for TS_DECODE_HEX (R104). -/
def neededWidth (p : Params) : Instr → Option Nat
  | .parseUserS => some 28
  | .parseUserL => some 72
  | .parseAttS => some 16
  | .parseAttL => some 40
  | .parseRtS => some 18
  | .parseRtL => some 52
  | .parseDevinfo => some p.devWidth
  | .tsDecodeHex => some 6
  | .csum | .encode | .decode | .tsDecodeInt | .tsEncodeInt => none

/-- The slice bytes the fields of a layout cover (R72, R73, R75); the others are ignored. -/
def Covers (p : Params) (i : Instr) (k : Nat) : Prop :=
  match i with
  | .parseUserS => k < 3 ∨ 8 ≤ k ∧ k < 16 ∨ 24 ≤ k ∧ k < 28
  | .parseUserL => k < 39 ∨ 48 ≤ k ∧ k < 57
  | .parseAttS => k < 2 ∨ 4 ≤ k ∧ k < 8
  | .parseAttL => k < 11 ∨ 27 ≤ k ∧ k < 31
  | .parseRtS => k = 8 ∨ 12 ≤ k ∧ k < 18
  | .parseRtL => 16 ≤ k ∧ k < 25 ∨ 42 ≤ k ∧ k < 48
  | .parseDevinfo =>
    p.devOffUsers ≤ k ∧ k < p.devOffUsers + 4 ∨ p.devOffLogs ≤ k ∧ k < p.devOffLogs + 4
      ∨ p.devOffCap ≤ k ∧ k < p.devOffCap + 4
  | .tsDecodeHex => k < 6
  | .csum | .encode | .decode => True
  | .tsDecodeInt | .tsEncodeInt => False

/-- The bits a host write stores, for a register that only stores what is written (R18, R20, R28); none for an RO register and
for `STATUS` and `OP`, which do something else. -/
def Reg.stored : Reg → Option Word
  | .ctrl => some 0x3
  | .hdrCmd | .hdrSid | .hdrRid => some 0xFFFF
  | .ioff | .ilen | .arg | .tsYear | .tsMonth | .tsDay | .tsHour | .tsMin | .tsSec => some 0xFFFFFFFF
  | .id | .status | .op | .olen | .result | .hdrCsum | .envLen | .tsConv => none
  | .recKind | .recValid | .recFlags | .recUid | .recRole | .recCard | .recUseridNum | .recUserSn => none
  | .recPwLen | .recNameLen | .recUseridLen | .recDevUsers | .recDevLogs | .recDevCap => none
  | .recPassword _ | .recName _ | .recUserid _ => none

/-- An access the bus admits when nothing is pending: a register or string word, 4 bytes wide, or 1, 2 or 4 aligned bytes of a
buffer (R44, R46, R50, R51). The register offsets are those of the map of R18. -/
def Admitted (p : Params) (addr n : Nat) : Prop :=
  ∃ a, addr = p.base + a ∧
    (n = 4 ∧ a % 4 = 0 ∧ (a ≤ 0x034 ∨ 0x040 ≤ a ∧ a ≤ 0x058 ∨ 0x080 ≤ a ∧ a ≤ 0x0B4 ∨ 0x0C0 ≤ a ∧ a ≤ 0x0E8)
      ∨ ∃ i, (a = 0x10000 + i ∨ a = 0x20000 + i) ∧ (n = 1 ∨ n = 2 ∨ n = 4) ∧ i % n = 0 ∧ i + n ≤ p.bufBytes)

/-! ### The host's accesses -/

/-- The register map of R18 as it is printed: the offset and the register. -/
def registerTable : List (Nat × Reg) :=
  [(0x000, .id), (0x004, .ctrl), (0x008, .status), (0x00C, .op), (0x010, .ioff), (0x014, .ilen), (0x018, .olen), (0x01C, .arg),
   (0x020, .result), (0x024, .hdrCmd), (0x028, .hdrCsum), (0x02C, .hdrSid), (0x030, .hdrRid), (0x034, .envLen),
   (0x040, .tsYear), (0x044, .tsMonth), (0x048, .tsDay), (0x04C, .tsHour), (0x050, .tsMin), (0x054, .tsSec), (0x058, .tsConv)]
  ++ [(0x080, .recKind), (0x084, .recValid), (0x088, .recFlags), (0x08C, .recUid), (0x090, .recRole), (0x094, .recCard),
   (0x098, .recUseridNum), (0x09C, .recUserSn), (0x0A0, .recPwLen), (0x0A4, .recNameLen), (0x0A8, .recUseridLen),
   (0x0AC, .recDevUsers), (0x0B0, .recDevLogs), (0x0B4, .recDevCap)]
  ++ [(0x0C0, .recPassword 0), (0x0C4, .recPassword 4), (0x0C8, .recName 0), (0x0CC, .recName 4), (0x0D0, .recName 8),
   (0x0D4, .recName 12), (0x0D8, .recName 16), (0x0DC, .recName 20), (0x0E0, .recUserid 0), (0x0E4, .recUserid 4),
   (0x0E8, .recUserid 8)]

/-- The host moves in the next step, from `s1` (`s` with the turn used up), and stands at the statement `st`. -/
def HostAt (s s1 : State) (st : Stmt) : Prop := s.nextTurn = (.host, s1) ∧ s1.host.prog[s1.host.pos]? = some st

/-- The step from `s` is the one bus access `op` at `s1`: its fault stops the run; otherwise the block is as the access leaves it, the
host agent goes on to statement `pos` at byte `sub`, and its variables are what `vars` says of the value returned. -/
def StepAccesses (s s1 : State) (op : BusOp) (pos sub : Nat) (vars : Word → List (Nat × Value) → Prop) : Prop :=
  (∀ f, s1.bus op = .error f → step s = .fault f)
    ∧ ∀ u w, s1.bus op = .ok (u, w) →
        ∃ new, step s = .next { u with host := { prog := s1.host.prog, pos := pos, sub := sub, vars := new } } ∧ vars w new

/-- The host variables `new` are `old` with `x` set to `v`. -/
def Assigned (old new : List (Nat × Value)) (x : Nat) (v : Value) : Prop :=
  assocGet x new = some v ∧ ∀ y, y ≠ x → assocGet y new = assocGet y old

/-- A host variable read as the 32 bits that `bnz` masks; for the bytes of an `rdb`, and for a variable that nothing has assigned,
that is the model's choice (log 7). -/
def Masks (vars : List (Nat × Value)) (x : Nat) (w : Word) : Prop :=
  assocGet x vars = some (.word w) ∨ (∃ bs, assocGet x vars = some (.bytes bs) ∧ w = BitVec.ofNat 32 (leNat bs))
    ∨ assocGet x vars = none ∧ w = Config.unassigned x

end Sys2Proof.Machine
end

