-- ==== Sys2Proof/Certificates/Slice0/Obligations.lean ====
section
/-! DEFINITION. The statements for the provers, each from the numbered rules of spec/ (OBLIGATIONS.json names them). -/

open Sys2Proof Sys2Proof.Machine

/-! ### Encoding (spec/30_encoding.md) -/

/-- R63, R65: an operation's four bytes decode to it whatever follows, and no other bytes decode to it. -/
def Obligations.OpWordBytesRoundTrip : Prop :=
  (∀ (i : Instr) (rest : List Byte), decodeBytes (encodeBytes i ++ rest) = .ok (i, rest))
    ∧ ∀ (i : Instr) (bytes rest : List Byte), decodeBytes bytes = .ok (i, rest) → bytes = encodeBytes i ++ rest

/-- R65: the op codes of the table, byte by byte, one of each family and the last of each group. -/
def Obligations.OpCodesOfTheTable : Prop :=
  decodeBytes [0x01, 0x00, 0x00, 0x00] = .ok (.csum, [])
    ∧ decodeBytes [0x02, 0x00, 0x00, 0x00] = .ok (.encode, [])
    ∧ decodeBytes [0x03, 0x00, 0x00, 0x00] = .ok (.decode, [])
    ∧ decodeBytes [0x10, 0x00, 0x00, 0x00] = .ok (.parseUserS, [])
    ∧ decodeBytes [0x16, 0x00, 0x00, 0x00] = .ok (.parseDevinfo, [])
    ∧ decodeBytes [0x20, 0x00, 0x00, 0x00] = .ok (.tsDecodeInt, [])
    ∧ decodeBytes [0x21, 0x00, 0x00, 0x00] = .ok (.tsEncodeInt, [])
    ∧ decodeBytes [0x22, 0x00, 0x00, 0x00] = .ok (.tsDecodeHex, [])

/-! ### Steps, turns and reset (spec/70_reset_and_hazards.md) -/

/-- R139: when the engine moves and the bytes of the pending word decode to an operation, the step is that operation's
meaning at the state with the turn used up (whose turn it is is the model's choice, log 1). -/
def Obligations.StepRunsDecodedOperation : Prop :=
  ∀ (s s1 : State) (w : Word) (i : Instr),
    s.nextTurn = (.engine, s1) → s1.pending = some w → decodeBytes (bytesOfWord w) = .ok (i, []) → step s = exec i s1

/-- R129: a pending word that is none of the thirteen op codes completes with ILLEGAL_OP and writes only `STATUS`. -/
def Obligations.IllegalWordWritesOnlyStatus : Prop :=
  ∀ (s s1 : State) (w : Word),
    s.nextTurn = (.engine, s1) → s1.pending = some w →
    w.toNat ∉ [0x01, 0x02, 0x03, 0x10, 0x11, 0x12, 0x13, 0x14, 0x15, 0x16, 0x20, 0x21, 0x22] →
    ∃ t, step s = .next t ∧ FailsWith s1 t .illegalOp .clear

/-- The order of turns, the model's own (log 1): what `turns` settles, then the host, and a pending operation completes after
`delay` further host turns; the engine with nothing pending does nothing (R139: its step is enabled exactly when something is
pending). -/
def Obligations.TurnsAreTakenInOrder : Prop :=
  (∀ (s : State) (t : Turn) (rest : List Turn), s.turns = t :: rest → step s = ({ s with turns := rest }).takeTurn t)
    ∧ (∀ s : State, s.turns = [] → s.pending = none → step s = s.hostTurn)
    ∧ (∀ (s : State) (w : Word), s.turns = [] → s.pending = some w → s.delay = 0 → step s = s.complete w)
    ∧ (∀ (s : State) (w : Word) (d : Nat), s.turns = [] → s.pending = some w → s.delay = d + 1 →
        step s = ({ s with delay := d }).hostTurn)
    ∧ ∀ (s : State) (rest : List Turn), s.turns = .engine :: rest → s.pending = none → step s = .next { s with turns := rest }

/-- R140, R142: asserting reset, at any time and whatever is pending, answers a state in which every register reads its reset value
(`ID` the constant, every other one 0) and nothing is pending. -/
def Obligations.ResetClearsEveryRegister : Prop :=
  ∀ (s : State) (rest : List Turn), s.turns = .reset :: rest →
    ∃ t, step s = .next t ∧ t.pending = none ∧ t.readReg .id = 0x46430001 ∧ ∀ r : Reg, r ≠ .id → t.readReg r = 0

/-- The invariant holds right after reset. -/
def Obligations.InvariantAtReset : Prop := State.reset.Inv

/-- The invariant is kept by every step: legal parameters, canonical buffers inside `BUF_BYTES`, `BUSY` exactly when an operation
is pending (R41), `DONE` and `BUSY` never both 1 (R21), the output inside `OBUF`, strings inside their windows (R37). The canonical form
is the model's own (log 3). -/
def Obligations.InvariantKeptByStep : Prop := ∀ s t : State, s.Inv → step s = .next t → t.Inv

/-- R139: a pending operation completes. Within as many steps as turns are settled, and the drawn number of host turns, and one
(log 1), nothing is pending any more, or the host's own program has stopped the run: by the host hazard of R145 (that it is named a
host hazard also where the access is not admitted is the model's choice, log 5) or by a branch to a label it does not hold (log 8). -/
def Obligations.PendingOperationCompletes : Prop :=
  ∀ s : State, s.Inv → s.pending ≠ none →
    ∃ k, k ≤ s.turns.length + s.delay + 1 ∧
      ((∃ t, Sys2Proof.core.run k s = .next t ∧ t.pending = none)
        ∨ (∃ op, Sys2Proof.core.run k s = .fault (.hostHazard op)) ∨ ∃ l, Sys2Proof.core.run k s = .refused (.undefinedLabel l))

/-- R53, R146: while an operation is pending, a step of the host leaves the block exactly as it is. -/
def Obligations.HostCannotDisturbPendingOperation : Prop :=
  ∀ s s1 t : State, s.nextTurn = (.host, s1) → s.status.busy = true → step s = .next t →
    t = { s with host := t.host, turns := t.turns, delay := t.delay }

/-! ### Every operation (spec/60_exceptions.md, spec/10_state.md) -/

/-- R121, R124: every operation, in every state, ends in a completion; on an error nothing but the status is written; only DECODE
writes a flag or sets `CSUM_STICKY`, and no operation clears it. -/
def Obligations.EveryOperationCompletes : Prop :=
  ∀ (i : Instr) (s : State), ∃ t, exec i s = .next t ∧ t.status.done = true ∧ t.status.busy = false ∧ t.pending = none
    ∧ (t.status.err ≠ .ok → t = { s with status := t.status, pending := none })
    ∧ (i ≠ .decode → t.status.flags = .clear ∧ t.status.csumSticky = s.status.csumSticky)
    ∧ (s.status.csumSticky = true → t.status.csumSticky = true)

/-- R43, R39: no operation writes its inputs: `CTRL`, `OP`, `IOFF`, `ILEN`, `ARG`, any byte of `IBUF`; nor the model's own data. -/
def Obligations.NoOperationWritesItsInputs : Prop :=
  ∀ (i : Instr) (s t : State), exec i s = .next t →
    t.ctrl = s.ctrl ∧ t.op = s.op ∧ t.ioff = s.ioff ∧ t.ilen = s.ilen ∧ t.arg = s.arg ∧ (∀ a, t.ibufByte a = s.ibufByte a)
      ∧ t.ibuf = s.ibuf ∧ t.cfg = s.cfg ∧ t.host = s.host ∧ t.turns = s.turns ∧ t.delay = s.delay ∧ t.started = s.started
      ∧ t.epoch = s.epoch

/-- R39, R40: a byte of `IBUF` changes only in a host turn or at reset; a byte of `OBUF` changes only at reset or when a pending
ENCODE or DECODE completes. -/
def Obligations.BuffersChangeOnlyAsNamed : Prop :=
  ∀ s t : State, step s = .next t →
    ((∃ a, t.ibufByte a ≠ s.ibufByte a) → s.nextTurn.1 = .host ∨ s.nextTurn.1 = .reset)
      ∧ ((∃ a, t.obufByte a ≠ s.obufByte a) →
          s.nextTurn.1 = .reset ∨ s.nextTurn.1 = .engine ∧ (s.pending = some 0x02 ∨ s.pending = some 0x03))

/-- R125: an operation that reads the slice ends with `BOUNDS`, before any other check, exactly when the slice does not fit; the two
that read no slice never do. -/
def Obligations.BoundsCheckedFirst : Prop :=
  ∀ (i : Instr) (s : State), ∃ t, exec i s = .next t ∧
    (i ≠ .tsDecodeInt → i ≠ .tsEncodeInt → ¬ s.SliceFits → FailsWith s t .bounds .clear)
    ∧ (t.status.err = .bounds → i ≠ .tsDecodeInt ∧ i ≠ .tsEncodeInt ∧ ¬ s.SliceFits)

/-- R127: an operation whose slice fits but is shorter than the width it needs ends with `DECODE_ERROR`, and no other operation or
slice does. -/
def Obligations.ShortSliceIsDecodeError : Prop :=
  ∀ (i : Instr) (s : State), ∃ t, exec i s = .next t ∧
    (∀ w, neededWidth s.cfg i = some w → s.SliceFits → s.ilen.toNat < w → FailsWith s t .decodeError .clear)
    ∧ (t.status.err = .decodeError → ∃ w, neededWidth s.cfg i = some w ∧ s.ilen.toNat < w)

/-! ### Checksum and CSUM (spec/41_frame_codec.md) -/

/-- R11: the slice is the bytes of `IBUF` from `IOFF` on, `ILEN` of them. -/
def Obligations.SliceIsTheNamedBytes : Prop :=
  ∀ s : State, s.slice.length = s.ilen.toNat ∧ ∀ k, k < s.ilen.toNat → s.slice[k]? = some (s.ibufByte (s.ioff.toNat + k))

/-- R86: the checksum is 65534 less the sum of the little-endian words and the odd last byte, modulo 65535; it is never 65535, and
65534 for no bytes. -/
def Obligations.ChecksumIsTheWordSum : Prop :=
  (∀ B : List Byte, checksum B = 65534 - wordTotal B % 65535 ∧ checksum B ≤ 65534) ∧ checksum [] = 65534

/-- R88 (c): a frame whose checksum field holds the checksum of the frame with that field zero has a sum congruent to 65534. -/
def Obligations.ChecksumCheckIdentity : Prop :=
  ∀ (a b lo hi : Byte) (rest : List Byte),
    lo.toNat + 256 * hi.toNat = checksum (a :: b :: 0 :: 0 :: rest) → wordTotal (a :: b :: lo :: hi :: rest) % 65535 = 65534

/-- R88 (d): swapping two whole words does not change the checksum, wherever they stand. -/
def Obligations.ChecksumIgnoresWordOrder : Prop :=
  ∀ (a b c d : Byte) (before between after : List Byte), before.length % 2 = 0 → between.length % 2 = 0 →
    checksum (before ++ [a, b] ++ between ++ [c, d] ++ after) = checksum (before ++ [c, d] ++ between ++ [a, b] ++ after)

/-- R87: CSUM of a slice that fits completes and puts the checksum of the slice into `RESULT`. -/
def Obligations.CsumGivesChecksumOfSlice : Prop :=
  ∀ s : State, s.SliceFits →
    ∃ t, exec .csum s = .next t ∧ Succeeds s t .clear ∧ t.result.toNat = 65534 - wordTotal s.slice % 65535

/-! ### ENCODE -/

/-- R89: ENCODE of a slice that fits and a frame that fits completes: the envelope (stream only), the header with its checksum, and
the payload in `OBUF`; `OLEN`, `ENV_LEN`, `HDR_CSUM` and `RESULT` as the rule says. -/
def Obligations.EncodeBuildsFrame : Prop :=
  ∀ s : State, s.cfg.legal = true → s.SliceFits → s.FrameFits →
    ∃ t, exec .encode s = .next t ∧ Succeeds s t .clear
      ∧ t.olen.toNat = frameAt s.ctrl.stream + 8 + s.ilen.toNat
      ∧ (s.ctrl.stream = true → t.outByte 0 = 0x50 ∧ t.outByte 1 = 0x50 ∧ t.outByte 2 = 0x82 ∧ t.outByte 3 = 0x7D
          ∧ u16At t.outByte 4 = 8 + s.ilen.toNat ∧ t.outByte 6 = 0 ∧ t.outByte 7 = 0)
      ∧ u16At t.outByte (frameAt s.ctrl.stream) = s.hdr.cmd.toNat
      ∧ u16At t.outByte (frameAt s.ctrl.stream + 2) = s.sentChecksum
      ∧ u16At t.outByte (frameAt s.ctrl.stream + 4) = s.hdr.sid.toNat
      ∧ u16At t.outByte (frameAt s.ctrl.stream + 6) = s.hdr.rid.toNat
      ∧ (∀ k, k < s.ilen.toNat → t.outByte (frameAt s.ctrl.stream + 8 + k) = s.sliceByte k)
      ∧ t.hdr.csum.toNat = s.sentChecksum ∧ t.result.toNat = s.sentChecksum
      ∧ t.envLen.toNat = if s.ctrl.stream then 8 + s.ilen.toNat else 0

/-- R43, R40: an ENCODE that succeeds writes `RESULT`, `HDR_CSUM`, `ENV_LEN`, `OLEN`, the status and the `OLEN` bytes of `OBUF` from 0
on (their number is computed from `CTRL.STREAM` and `ILEN`); every other register and every other byte is unchanged. -/
def Obligations.EncodeFrameCondition : Prop :=
  ∀ s t : State, exec .encode s = .next t →
    t = { s with
          result := t.result, hdr := { s.hdr with csum := t.hdr.csum }, envLen := t.envLen, olen := t.olen, obuf := t.obuf
          status := t.status, pending := none }
      ∧ (∀ a, t.ibufByte a = s.ibufByte a)
      ∧ ∀ a, frameAt s.ctrl.stream + 8 + s.ilen.toNat ≤ a → t.obufByte a = s.obufByte a

/-- R130, R132: ENCODE of a slice that fits ends with `LENGTH_OVERFLOW`, with nothing else written, exactly when the frame would not
fit `OBUF` or the u16 inner length. -/
def Obligations.EncodeRefusesLongFrames : Prop :=
  ∀ s : State, s.SliceFits → ∃ t, exec .encode s = .next t ∧
    (¬ s.FrameFits → FailsWith s t .lengthOverflow .clear) ∧ (s.FrameFits → t.status.err = .ok)

/-- R92: (a) after a successful stream ENCODE the inner length is `ENV_LEN` and 8 more than `ILEN`; (b) the checksum field equals
`HDR_CSUM`, at 2 without and at 10 with the envelope; (c) the stream output without its first 8 bytes is the datagram output of the
same inputs. -/
def Obligations.EnvelopeStripsToDatagram : Prop :=
  ∀ s t u : State, s.cfg.legal = true →
    exec .encode { s with ctrl := { s.ctrl with stream := true } } = .next t →
    exec .encode { s with ctrl := { s.ctrl with stream := false } } = .next u →
    (t.status.err = .ok → u16At t.outByte 4 = t.envLen.toNat ∧ t.envLen.toNat = 8 + s.ilen.toNat
        ∧ u16At t.outByte 10 = t.hdr.csum.toNat)
      ∧ (u.status.err = .ok → u16At u.outByte 2 = u.hdr.csum.toNat)
      ∧ (t.status.err = .ok → u.status.err = .ok ∧ t.olen.toNat = u.olen.toNat + 8
          ∧ ∀ k, k < u.olen.toNat → t.outByte (8 + k) = u.outByte k)

/-! ### DECODE -/

/-- R93, R94: DECODE of a slice that fits, is long enough and, in strict mode, mismatches in nothing, completes: the header fields,
the payload as the whole remainder, the inner length, the computed checksum and the flags. -/
def Obligations.DecodeTakesFrameApart : Prop :=
  ∀ (s : State) (env : Bool), (env = true ↔ s.EnvFound) → s.SliceFits → frameAt env + 8 ≤ s.ilen.toNat →
    (s.ctrl.strict = true → (s.frameFlags env).lenMismatch = false ∧ (s.frameFlags env).csumMismatch = false) →
    ∃ t, exec .decode s = .next t
      ∧ t.status =
          { err := .ok, done := true, busy := false, flags := s.frameFlags env
            csumSticky := s.status.csumSticky || (s.frameFlags env).csumMismatch }
      ∧ t.pending = none
      ∧ t.hdr.cmd.toNat = u16At s.sliceByte (frameAt env) ∧ t.hdr.csum.toNat = u16At s.sliceByte (frameAt env + 2)
      ∧ t.hdr.sid.toNat = u16At s.sliceByte (frameAt env + 4) ∧ t.hdr.rid.toNat = u16At s.sliceByte (frameAt env + 6)
      ∧ t.olen.toNat = s.ilen.toNat - (frameAt env + 8)
      ∧ (∀ k, k < s.ilen.toNat - (frameAt env + 8) → t.outByte k = s.sliceByte (frameAt env + 8 + k))
      ∧ t.envLen.toNat = (if env then u16At s.sliceByte 4 else 0)
      ∧ t.result.toNat = s.receivedChecksum env

/-- R43, R40: a DECODE writes `RESULT`, the header, `ENV_LEN`, `OLEN`, the status and, when it succeeds, the payload's bytes of `OBUF`
from 0 on (their number is computed from `ILEN` and whether the envelope was found); every other register and byte is unchanged. -/
def Obligations.DecodeFrameCondition : Prop :=
  ∀ (s t : State) (env : Bool), (env = true ↔ s.EnvFound) → exec .decode s = .next t →
    t = { s with
          result := t.result, hdr := t.hdr, envLen := t.envLen, olen := t.olen, obuf := t.obuf, status := t.status
          pending := none }
      ∧ (∀ a, t.ibufByte a = s.ibufByte a)
      ∧ ∀ a, s.ilen.toNat - (frameAt env + 8) ≤ a → t.obufByte a = s.obufByte a

/-- R126: MALFORMED_FRAME: (a), (b) a slice too short for its header, with or without the envelope; (c) in strict mode an inner
length other than `ILEN - 8`, whatever the checksum; nothing but the status is written. No other operation and no other case
raises it. -/
def Obligations.DecodeMalformedFrames : Prop :=
  (∀ (s : State) (env : Bool), (env = true ↔ s.EnvFound) → s.SliceFits →
    (s.ilen.toNat < frameAt env + 8 →
        ∃ t, exec .decode s = .next t ∧ FailsWith s t .malformedFrame { DecodeFlags.clear with envPresent := env })
      ∧ (frameAt env + 8 ≤ s.ilen.toNat → s.ctrl.strict = true → env = true → u16At s.sliceByte 4 ≠ s.ilen.toNat - 8 →
          ∃ t, exec .decode s = .next t
            ∧ t = { s with
                    status :=
                      { err := .malformedFrame, done := true, busy := false, flags := s.frameFlags env
                        csumSticky := s.status.csumSticky || (s.frameFlags env).csumMismatch }
                    pending := none }))
    ∧ ∀ (i : Instr) (s t : State) (env : Bool), (env = true ↔ s.EnvFound) → exec i s = .next t → t.status.err = .malformedFrame →
        i = .decode ∧ (s.ilen.toNat < frameAt env + 8
          ∨ s.ctrl.strict = true ∧ env = true ∧ u16At s.sliceByte 4 ≠ s.ilen.toNat - 8)

/-- R128: a checksum mismatch of a frame that is long enough and has the right inner length is CHECKSUM_MISMATCH with `STRICT = 1`; with
`STRICT = 0` it is no error and the frame is decoded; both set the flag and `CSUM_STICKY`. Only a strict DECODE raises it. -/
def Obligations.ChecksumMismatchByMode : Prop :=
  (∀ (s : State) (env : Bool), (env = true ↔ s.EnvFound) → s.SliceFits → frameAt env + 8 ≤ s.ilen.toNat →
    s.receivedChecksum env ≠ u16At s.sliceByte (frameAt env + 2) →
    ∃ t, exec .decode s = .next t ∧ t.status.flags.csumMismatch = true ∧ t.status.csumSticky = true
      ∧ (s.ctrl.strict = true → (env = true → u16At s.sliceByte 4 = s.ilen.toNat - 8) →
          t.status.err = .checksumMismatch ∧ t = { s with status := t.status, pending := none })
      ∧ (s.ctrl.strict = false → t.status.err = .ok ∧ t.hdr.cmd.toNat = u16At s.sliceByte (frameAt env)
          ∧ t.hdr.csum.toNat = u16At s.sliceByte (frameAt env + 2) ∧ t.hdr.sid.toNat = u16At s.sliceByte (frameAt env + 4)
          ∧ t.hdr.rid.toNat = u16At s.sliceByte (frameAt env + 6) ∧ t.olen.toNat = s.ilen.toNat - (frameAt env + 8)
          ∧ ∀ k, k < s.ilen.toNat - (frameAt env + 8) → t.outByte k = s.sliceByte (frameAt env + 8 + k)))
    ∧ ∀ (i : Instr) (s t : State) (env : Bool), (env = true ↔ s.EnvFound) → exec i s = .next t →
        t.status.err = .checksumMismatch →
        i = .decode ∧ s.ctrl.strict = true ∧ s.receivedChecksum env ≠ u16At s.sliceByte (frameAt env + 2)

/-- R96: DECODE of what a successful ENCODE wrote, with the same transport and in either mode, gives back the command, the session id,
the reply id and the payload, with the encoder's checksum and no mismatch. -/
def Obligations.DecodeUndoesEncode : Prop :=
  ∀ s t u : State, s.cfg.legal = true → exec .encode s = .next t → t.status.err = .ok →
    u.ctrl.stream = s.ctrl.stream → u.SliceFits → u.ilen = t.olen → (∀ k, k < t.olen.toNat → u.sliceByte k = t.outByte k) →
    ∃ v, exec .decode u = .next v ∧ v.status.err = .ok
      ∧ v.status.flags = { DecodeFlags.clear with envPresent := s.ctrl.stream }
      ∧ v.hdr = { cmd := s.hdr.cmd, csum := t.hdr.csum, sid := s.hdr.sid, rid := s.hdr.rid }
      ∧ v.result = v.hdr.csum.setWidth 32 ∧ v.result = t.result
      ∧ v.olen = s.ilen ∧ ∀ k, k < s.ilen.toNat → v.outByte k = s.sliceByte k

/-! ### Timestamps (spec/42_timestamp.md) -/

/-- R99, R100: TS_DECODE_INT completes for every `ARG`: the mixed-radix fields, the month 1-indexed, within the ranges of R99. -/
def Obligations.TsDecodeIntFields : Prop :=
  ∀ s : State, ∃ t, exec .tsDecodeInt s = .next t ∧ Succeeds s t .clear ∧ t.tsConv = .oneIndexed ∧ IntTime s.arg.toNat t.ts
    ∧ 2000 ≤ t.ts.year.toNat ∧ t.ts.year.toNat ≤ 2133 ∧ 1 ≤ t.ts.month.toNat ∧ t.ts.month.toNat ≤ 12
    ∧ 1 ≤ t.ts.day.toNat ∧ t.ts.day.toNat ≤ 31

/-- R102, R101: TS_ENCODE_INT completes with the exact value of the formula over the signed fields, the month taken as 1-indexed, when
that is a u32, and ends with RANGE and writes nothing else when it is not (R131). -/
def Obligations.TsEncodeIntFormula : Prop :=
  ∀ (s : State) (r : Int),
    r = ((s.ts.year.toInt - 2000) * 12 + s.ts.month.toInt - 1) * 2678400 + (s.ts.day.toInt - 1) * 86400
          + s.ts.hour.toInt * 3600 + s.ts.minute.toInt * 60 + s.ts.second.toInt →
    ∃ t, exec .tsEncodeInt s = .next t ∧ (0 ≤ r → r < 4294967296 → Succeeds s t .clear ∧ (t.result.toNat : Int) = r)
      ∧ (r < 0 ∨ 4294967296 ≤ r → FailsWith s t .range .clear)

/-- R104: TS_DECODE_HEX of a slice that fits and has 6 bytes completes: the six bytes, the month 0-indexed and -1 for a month byte
of 0. -/
def Obligations.TsDecodeHexFields : Prop :=
  ∀ s : State, s.SliceFits → 6 ≤ s.ilen.toNat →
    ∃ t, exec .tsDecodeHex s = .next t ∧ Succeeds s t .clear ∧ t.tsConv = .zeroIndexed ∧ HexTime s.sliceByte 0 t.ts

/-- R105 (a): TS_DECODE_INT then TS_ENCODE_INT gives back `ARG` in `RESULT`, with no error, for every `ARG`. -/
def Obligations.TsEncodeUndoesDecode : Prop :=
  ∀ s t : State, exec .tsDecodeInt s = .next t →
    ∃ u, exec .tsEncodeInt t = .next u ∧ u.status.err = .ok ∧ u.result = s.arg ∧ u.ts = t.ts

/-- R105 (b): TS_ENCODE_INT of canonical fields that does not overflow, then TS_DECODE_INT of its result, gives back the fields. -/
def Obligations.TsDecodeUndoesEncode : Prop :=
  ∀ s t u : State, 2000 ≤ s.ts.year.toInt → 1 ≤ s.ts.month.toInt → s.ts.month.toInt ≤ 12 → 1 ≤ s.ts.day.toInt →
    s.ts.day.toInt ≤ 31 → 0 ≤ s.ts.hour.toInt → s.ts.hour.toInt ≤ 23 → 0 ≤ s.ts.minute.toInt → s.ts.minute.toInt ≤ 59 →
    0 ≤ s.ts.second.toInt → s.ts.second.toInt ≤ 59 →
    exec .tsEncodeInt s = .next t → t.status.err = .ok → exec .tsDecodeInt { t with arg := t.result } = .next u → u.ts = s.ts

/-- R103, R148: TS_ENCODE_INT does not read `TS_CONV`, and after a 6-byte decode or a real-time parse it gives the time of one month
(31 days) earlier than after the host has written `TS_MONTH + 1`. -/
def Obligations.MonthConventionHazard : Prop :=
  (∀ (s : State) (c : MonthConv) (t : State), exec .tsEncodeInt s = .next t →
      exec .tsEncodeInt { s with tsConv := c } = .next { t with tsConv := c })
    ∧ ∀ (i : Instr) (s t u v : State), i = .tsDecodeHex ∨ i = .parseRtS ∨ i = .parseRtL →
        exec i s = .next t → t.status.err = .ok → exec .tsEncodeInt t = .next u → u.status.err = .ok →
        exec .tsEncodeInt (t.writeReg (t.ts.month + 1) .tsMonth) = .next v → v.status.err = .ok →
        v.result.toNat = u.result.toNat + 2678400

/-- R43: what TS_DECODE_INT and TS_DECODE_HEX leave unchanged: everything but the timestamp bank and the status, so every byte of both
buffers too. -/
def Obligations.TsDecodeFrameCondition : Prop :=
  ∀ (i : Instr) (s t : State), i = .tsDecodeInt ∨ i = .tsDecodeHex → exec i s = .next t →
    t = { s with ts := t.ts, tsConv := t.tsConv, status := t.status, pending := none }
      ∧ ∀ a, t.ibufByte a = s.ibufByte a ∧ t.obufByte a = s.obufByte a

/-- R43: what CSUM and TS_ENCODE_INT leave unchanged: everything but `RESULT` and the status, so every byte of both buffers too. -/
def Obligations.ScalarResultFrameCondition : Prop :=
  ∀ (i : Instr) (s t : State), i = .csum ∨ i = .tsEncodeInt → exec i s = .next t →
    t = { s with result := t.result, status := t.status, pending := none }
      ∧ ∀ a, t.ibufByte a = s.ibufByte a ∧ t.obufByte a = s.obufByte a

/-! ### Records (spec/43_record_parser.md) -/

/-- R111: PARSE_USER_S of a slice that fits and has 28 bytes. -/
def Obligations.ParseUserShortRecord : Prop :=
  ∀ s : State, s.SliceFits → 28 ≤ s.ilen.toNat →
    ∃ t, exec .parseUserS s = .next t ∧ Succeeds s t .clear ∧ t.readReg .recKind = 0x10 ∧ t.readReg .recValid = 0x04B
      ∧ (t.readReg .recUid).toNat = u16At s.sliceByte 0 ∧ (t.readReg .recRole).toNat = s.sliceByte 2
      ∧ (∃ nm, t.recd.name = some nm ∧ IsText s.sliceByte 8 16 nm)
      ∧ (t.readReg .recUseridNum).toNat = u32At s.sliceByte 24

/-- R112: PARSE_USER_L of a slice that fits and has 72 bytes. -/
def Obligations.ParseUserLongRecord : Prop :=
  ∀ s : State, s.SliceFits → 72 ≤ s.ilen.toNat →
    ∃ t, exec .parseUserL s = .next t ∧ Succeeds s t .clear ∧ t.readReg .recKind = 0x11 ∧ t.readReg .recValid = 0x03F
      ∧ (t.readReg .recUid).toNat = u16At s.sliceByte 0 ∧ (t.readReg .recRole).toNat = s.sliceByte 2
      ∧ (∃ pw, t.recd.password = some pw ∧ IsText s.sliceByte 3 11 pw)
      ∧ (∃ nm, t.recd.name = some nm ∧ IsText s.sliceByte 11 35 nm)
      ∧ (t.readReg .recCard).toNat = u32At s.sliceByte 35
      ∧ ∃ uid, t.recd.useridStr = some uid ∧ IsText s.sliceByte 48 57 uid

/-- R113: PARSE_ATT_S of a slice that fits and has 16 bytes. -/
def Obligations.ParseAttendanceShortRecord : Prop :=
  ∀ s : State, s.SliceFits → 16 ≤ s.ilen.toNat →
    ∃ t, exec .parseAttS s = .next t ∧ Succeeds s t .clear ∧ t.readReg .recKind = 0x12 ∧ t.readReg .recValid = 0x140
      ∧ (t.readReg .recUseridNum).toNat = u16At s.sliceByte 0 ∧ t.tsConv = .oneIndexed ∧ IntTime (u32At s.sliceByte 4) t.ts

/-- R114: PARSE_ATT_L of a slice that fits and has 40 bytes. -/
def Obligations.ParseAttendanceLongRecord : Prop :=
  ∀ s : State, s.SliceFits → 40 ≤ s.ilen.toNat →
    ∃ t, exec .parseAttL s = .next t ∧ Succeeds s t .clear ∧ t.readReg .recKind = 0x13 ∧ t.readReg .recValid = 0x1A0
      ∧ (t.readReg .recUserSn).toNat = u16At s.sliceByte 0
      ∧ (∃ uid, t.recd.useridStr = some uid ∧ IsText s.sliceByte 2 11 uid)
      ∧ t.tsConv = .oneIndexed ∧ IntTime (u32At s.sliceByte 27) t.ts

/-- R115: PARSE_RT_S of a slice that fits and has 18 bytes. -/
def Obligations.ParseRealTimeShortRecord : Prop :=
  ∀ s : State, s.SliceFits → 18 ≤ s.ilen.toNat →
    ∃ t, exec .parseRtS s = .next t ∧ Succeeds s t .clear ∧ t.readReg .recKind = 0x14 ∧ t.readReg .recValid = 0x140
      ∧ (t.readReg .recUseridNum).toNat = s.sliceByte 8 ∧ t.tsConv = .zeroIndexed ∧ HexTime s.sliceByte 12 t.ts

/-- R116, R73: PARSE_RT_L of a slice that fits and has 52 bytes: the fields stand at the absolute offsets 16 and 42. -/
def Obligations.ParseRealTimeLongRecord : Prop :=
  ∀ s : State, s.SliceFits → 52 ≤ s.ilen.toNat →
    ∃ t, exec .parseRtL s = .next t ∧ Succeeds s t .clear ∧ t.readReg .recKind = 0x15 ∧ t.readReg .recValid = 0x120
      ∧ (∃ uid, t.recd.useridStr = some uid ∧ IsText s.sliceByte 16 25 uid)
      ∧ t.tsConv = .zeroIndexed ∧ HexTime s.sliceByte 42 t.ts

/-- R117: PARSE_DEVINFO of a slice that fits and has `DEVINFO_WIDTH` bytes, for every legal choice of the parameters. -/
def Obligations.ParseDevinfoRecord : Prop :=
  ∀ s : State, s.cfg.legal = true → s.SliceFits → s.cfg.devWidth ≤ s.ilen.toNat →
    ∃ t, exec .parseDevinfo s = .next t ∧ Succeeds s t .clear ∧ t.readReg .recKind = 0x16 ∧ t.readReg .recValid = 0xE00
      ∧ (t.readReg .recDevUsers).toNat = u32At s.sliceByte s.cfg.devOffUsers
      ∧ (t.readReg .recDevLogs).toNat = u32At s.sliceByte s.cfg.devOffLogs
      ∧ (t.readReg .recDevCap).toNat = u32At s.sliceByte s.cfg.devOffCap

/-- R43, R110: what a parse leaves unchanged: everything but the record bank, the status and, for the four layouts with a timestamp,
the timestamp bank; every byte of both buffers is unchanged. -/
def Obligations.ParseFrameCondition : Prop :=
  (∀ (i : Instr) (s t : State), i = .parseUserS ∨ i = .parseUserL ∨ i = .parseDevinfo → exec i s = .next t →
      t = { s with recd := t.recd, status := t.status, pending := none }
        ∧ ∀ a, t.ibufByte a = s.ibufByte a ∧ t.obufByte a = s.obufByte a)
    ∧ ∀ (i : Instr) (s t : State), i = .parseAttS ∨ i = .parseAttL ∨ i = .parseRtS ∨ i = .parseRtL → exec i s = .next t →
        t = { s with recd := t.recd, ts := t.ts, tsConv := t.tsConv, status := t.status, pending := none }
          ∧ ∀ a, t.ibufByte a = s.ibufByte a ∧ t.obufByte a = s.obufByte a

/-- R72, R73: a parse, and TS_DECODE_HEX, reads no byte its layout does not cover: with other bytes there, it gives the same. -/
def Obligations.ParseReadsOnlyCoveredBytes : Prop :=
  ∀ (i : Instr) (s : State) (m : Memory) (w : Nat), s.cfg.legal = true → neededWidth s.cfg i = some w → w ≤ s.ilen.toNat →
    (∀ k, Covers s.cfg i k → ({ s with ibuf := m }).sliceByte k = s.sliceByte k) →
    ∃ t, exec i s = .next t ∧ exec i { s with ibuf := m } = .next { t with ibuf := m }

/-- R37: the string windows: byte `j` of a string that fits its window is byte `j mod 4` of the word at `4 * (j div 4)`; past the
string, and in an unset one, every byte reads 0; the length register reads the length. -/
def Obligations.StringWindowsReadBytes : Prop :=
  ∀ (s : State) (j : Nat),
    (s.readReg (.recName (4 * (j / 4)))).extractLsb' (8 * (j % 4)) 8 = (s.recd.name.getD []).getD j 0
      ∧ (s.readReg (.recPassword (4 * (j / 4)))).extractLsb' (8 * (j % 4)) 8 = (s.recd.password.getD []).getD j 0
      ∧ (s.readReg (.recUserid (4 * (j / 4)))).extractLsb' (8 * (j % 4)) 8 = (s.recd.useridStr.getD []).getD j 0
      ∧ (s.recd.Ok → (s.readReg .recNameLen).toNat = (s.recd.name.getD []).length
          ∧ (s.readReg .recPwLen).toNat = (s.recd.password.getD []).length
          ∧ (s.readReg .recUseridLen).toNat = (s.recd.useridStr.getD []).length)

/-- R34, R36: a field whose `REC_VALID` bit is 0 reads 0. -/
def Obligations.UnsetFieldsReadZero : Prop :=
  ∀ s : State,
    ((s.readReg .recValid).getLsbD 0 = false → s.readReg .recUid = 0)
      ∧ ((s.readReg .recValid).getLsbD 1 = false → s.readReg .recRole = 0)
      ∧ ((s.readReg .recValid).getLsbD 2 = false → s.readReg .recPwLen = 0 ∧ ∀ k, s.readReg (.recPassword k) = 0)
      ∧ ((s.readReg .recValid).getLsbD 3 = false → s.readReg .recNameLen = 0 ∧ ∀ k, s.readReg (.recName k) = 0)
      ∧ ((s.readReg .recValid).getLsbD 4 = false → s.readReg .recCard = 0)
      ∧ ((s.readReg .recValid).getLsbD 5 = false → s.readReg .recUseridLen = 0 ∧ ∀ k, s.readReg (.recUserid k) = 0)
      ∧ ((s.readReg .recValid).getLsbD 6 = false → s.readReg .recUseridNum = 0)
      ∧ ((s.readReg .recValid).getLsbD 7 = false → s.readReg .recUserSn = 0)
      ∧ ((s.readReg .recValid).getLsbD 9 = false → s.readReg .recDevUsers = 0)
      ∧ ((s.readReg .recValid).getLsbD 10 = false → s.readReg .recDevLogs = 0)
      ∧ ((s.readReg .recValid).getLsbD 11 = false → s.readReg .recDevCap = 0)

/-- R35: `REC_FLAGS` is 1 when a string of the record has a byte of 0x80 or more, and 0 otherwise. -/
def Obligations.NonAsciiFlag : Prop :=
  ∀ s : State,
    (s.readReg .recFlags = 1 ↔
        ∃ bs, (s.recd.password = some bs ∨ s.recd.name = some bs ∨ s.recd.useridStr = some bs) ∧ ∃ b ∈ bs, 0x80 ≤ b.toNat)
      ∧ (s.readReg .recFlags = 0 ∨ s.readReg .recFlags = 1)

/-! ### STATUS and the host bus (spec/10_state.md, spec/20_memory.md) -/

/-- R21, R123: `STATUS` reads as the sum of its fields, each at its bit, so every reserved bit reads 0; the error codes. -/
def Obligations.StatusBits : Prop :=
  ∀ s : State, (s.readReg .status).toNat =
    (match s.status.err with
      | .ok => 0 | .malformedFrame => 1 | .decodeError => 2 | .checksumMismatch => 3 | .illegalOp => 4 | .bounds => 5
      | .lengthOverflow => 6 | .range => 7)
      + s.status.done.toNat * 0x100 + s.status.busy.toNat * 0x200 + s.status.flags.envPresent.toNat * 0x400
      + s.status.flags.csumMismatch.toNat * 0x800 + s.status.flags.lenMismatch.toNat * 0x1000
      + s.status.flags.rsvNonzero.toNat * 0x2000 + s.status.csumSticky.toNat * 0x10000

/-- R18, R20, R24, R26, R28, R31: with nothing pending, a host write to a register that only stores is admitted, the register then
reads the stored bits of the value (reserved bits 0), and every other register and both buffers are as before. -/
def Obligations.RegisterWriteReadsBack : Prop :=
  ∀ (s : State) (r : Reg) (mask v : Word), r.stored = some mask → s.status.busy = false →
    ∃ t, s.bus (.write (s.cfg.base + r.offset) 4 v) = .ok (t, 0)
      ∧ t.bus (.read (s.cfg.base + r.offset) 4) = .ok (t, v &&& mask) ∧ (∀ r', r' ≠ r → t.readReg r' = s.readReg r')
      ∧ (∀ a, t.ibufByte a = s.ibufByte a ∧ t.obufByte a = s.obufByte a) ∧ t.pending = s.pending

/-- R18: with nothing pending, a host write to an RO register or an RO string word is admitted and changes nothing. -/
def Obligations.ReadOnlyWritesIgnored : Prop :=
  ∀ (s : State) (r : Reg) (v : Word), r.wf = true → r.stored = none → r ≠ .status → r ≠ .op → s.status.busy = false →
    s.bus (.write (s.cfg.base + r.offset) 4 v) = .ok (s, 0)

/-- R22: with nothing pending, a host write to `STATUS` clears `CSUM_STICKY` when bit 16 of the value is 1 and does nothing else. -/
def Obligations.StatusWriteClearsSticky : Prop :=
  ∀ (s : State) (v : Word), s.status.busy = false →
    ∃ t, s.bus (.write (s.cfg.base + 0x008) 4 v) = .ok (t, 0)
      ∧ t.status.csumSticky = (if v.getLsbD 16 then false else s.status.csumSticky)
      ∧ t = { s with status := { s.status with csumSticky := t.status.csumSticky } }

/-- R23: with nothing pending, a host write of any `w` to `OP` is accepted: `OP` reads `w`, `BUSY` is 1, `DONE` is 0 and `w` is pending;
nothing else of the block changes (the drawn delay and the count are the model's own, log 1). -/
def Obligations.OpWriteStartsOperation : Prop :=
  ∀ (s : State) (w : Word), s.status.busy = false →
    ∃ t, s.bus (.write (s.cfg.base + 0x00C) 4 w) = .ok (t, 0) ∧ t.readReg .op = w ∧ t.pending = some w
      ∧ t = { s with
              op := w, status := { s.status with busy := true, done := false }, pending := some w
              delay := t.delay, started := t.started }

/-- R44, R46, R50, R51, R52: with nothing pending, the bus answers exactly the admitted accesses; every other one is a bus error
(for addresses outside the block's space that is the model's choice, log 6). -/
def Obligations.BusErrorsExactly : Prop :=
  ∀ (s : State) (op : BusOp), s.cfg.legal = true → s.status.busy = false →
    (Admitted s.cfg op.addr op.width → ∃ t v, s.bus op = .ok (t, v))
      ∧ (¬ Admitted s.cfg op.addr op.width → s.bus op = .error (.busError op))

/-- R145: while `BUSY = 1`, a read of `STATUS` is admitted and changes nothing, and every other access is a host hazard. The model
names it so also where R52 names a bus error (an access of a wrong width or at an unassigned address): the model's choice, log 5. -/
def Obligations.HazardsExactly : Prop :=
  ∀ (s : State) (op : BusOp), s.status.busy = true →
    (op = .read (s.cfg.base + 0x008) 4 → s.bus op = .ok (s, s.readReg .status))
      ∧ (op ≠ .read (s.cfg.base + 0x008) 4 → s.bus op = .error (.hostHazard op))

/-- R48, R49, R50: a read of `n` bytes of the input window gives them in little-endian order, zero-extended; a host write of `n` bytes
at index `i` stores byte `k` of the value at `i + k`, its upper bytes unused, and changes nothing else; an aligned read of 1, 2 or 4 of
the bytes just written gives that part of the value, zero-extended. That a narrow read is zero-extended and a narrow write takes the
low bytes is the model's choice (log 17). -/
def Obligations.InputWindowWriteReadsBack : Prop :=
  ∀ (s : State) (i n : Nat) (v : Word), s.cfg.legal = true → s.status.busy = false → (n = 1 ∨ n = 2 ∨ n = 4) → i % n = 0 →
    i + n ≤ s.cfg.bufBytes →
    (∃ w, s.bus (.read (s.cfg.base + 0x10000 + i) n) = .ok (s, w) ∧ w.toNat < 2 ^ (8 * n)
        ∧ ∀ k, k < n → w.extractLsb' (8 * k) 8 = s.ibufByte (i + k))
      ∧ ∃ t, s.bus (.write (s.cfg.base + 0x10000 + i) n v) = .ok (t, 0) ∧ t = { s with ibuf := t.ibuf }
        ∧ (∀ a, t.ibufByte a = if i ≤ a ∧ a < i + n then v.extractLsb' (8 * (a - i)) 8 else s.ibufByte a)
        ∧ ∀ j m, (m = 1 ∨ m = 2 ∨ m = 4) → j % m = 0 → j + m ≤ n →
            t.bus (.read (s.cfg.base + 0x10000 + i + j) m) = .ok (t, BitVec.ofNat 32 (v.toNat / 2 ^ (8 * j) % 2 ^ (8 * m)))

/-- R50, R49: a read of `n` bytes of the output window gives them in little-endian order, zero-extended (the
model's choice, log 17); a write there is admitted and ignored. -/
def Obligations.OutputWindowIsReadOnly : Prop :=
  ∀ (s : State) (i n : Nat) (v : Word), s.cfg.legal = true → s.status.busy = false → (n = 1 ∨ n = 2 ∨ n = 4) → i % n = 0 →
    i + n ≤ s.cfg.bufBytes →
    s.bus (.write (s.cfg.base + 0x20000 + i) n v) = .ok (s, 0)
      ∧ ∃ w, s.bus (.read (s.cfg.base + 0x20000 + i) n) = .ok (s, w) ∧ w.toNat < 2 ^ (8 * n)
        ∧ ∀ k, k < n → w.extractLsb' (8 * k) 8 = s.obufByte (i + k)

/-- R54: a host read that is answered changes no state at all. R18, R46: with nothing pending, a 4-byte read at the offset of a register
or string word answers that register, and the offsets are the numbers of the map of R18. R19, R20, R23 to R32: the registers read what
the operations write and use; reserved bits read 0. (`StatusBits` says what `STATUS` reads as, the statements on records what the
record bank does.) -/
def Obligations.ReadsHaveNoSideEffect : Prop :=
  (∀ (s t : State) (addr n : Nat) (v : Word), s.bus (.read addr n) = .ok (t, v) → t = s)
    ∧ (∀ (s : State) (r : Reg), r.wf = true → s.status.busy = false →
        s.bus (.read (s.cfg.base + r.offset) 4) = .ok (s, s.readReg r))
    ∧ (∀ (a : Nat) (r : Reg), (a, r) ∈ registerTable ↔ r.wf = true ∧ a = r.offset)
    ∧ ∀ s : State,
        s.readReg .id = 0x46430001 ∧ (s.readReg .ctrl).toNat = s.ctrl.stream.toNat + 2 * s.ctrl.strict.toNat ∧ s.readReg .op = s.op
          ∧ s.readReg .ioff = s.ioff ∧ s.readReg .ilen = s.ilen ∧ s.readReg .olen = s.olen ∧ s.readReg .arg = s.arg
          ∧ s.readReg .result = s.result ∧ (s.readReg .hdrCmd).toNat = s.hdr.cmd.toNat
          ∧ (s.readReg .hdrCsum).toNat = s.hdr.csum.toNat ∧ (s.readReg .hdrSid).toNat = s.hdr.sid.toNat
          ∧ (s.readReg .hdrRid).toNat = s.hdr.rid.toNat ∧ (s.readReg .envLen).toNat = s.envLen.toNat
          ∧ s.readReg .tsYear = s.ts.year ∧ s.readReg .tsMonth = s.ts.month ∧ s.readReg .tsDay = s.ts.day
          ∧ s.readReg .tsHour = s.ts.hour ∧ s.readReg .tsMin = s.ts.minute ∧ s.readReg .tsSec = s.ts.second
          ∧ s.readReg .tsConv = if s.tsConv = .zeroIndexed then 1 else 0

/-- R79, R10: what a host turn does at each statement. `wr32`, `rd32` and the raw `MemWrite` and `MemRead` make their one access; a
`wrb` or `rdb` makes the access of its next byte and stays at the statement until its last; `label` goes on; `bnz` branches when
`x AND mask != 0`. One access a turn, and a turn for `label` and `bnz`, is the model's choice (log 9); so are the raw accesses as
statements (log 18), the value of a variable that no register or memory read gave (log 7), which of two equal labels is meant and that a
missing one stops the run (log 8), and the idle turn past the end (log 15). -/
def Obligations.StepServesRegisterStatements : Prop :=
  ∀ s s1 : State,
    (∀ r v, HostAt s s1 (.wr32 r v) →
        StepAccesses s s1 (.write (s1.cfg.base + r.offset) 4 v) (s1.host.pos + 1) 0 fun _ new => new = s1.host.vars)
      ∧ (∀ r x, HostAt s s1 (.rd32 r x) →
          StepAccesses s s1 (.read (s1.cfg.base + r.offset) 4) (s1.host.pos + 1) 0 fun w new =>
            Assigned s1.host.vars new x (.word w))
      ∧ (∀ addr n v, HostAt s s1 (.memWrite addr n v) →
          StepAccesses s s1 (.write addr n v) (s1.host.pos + 1) 0 fun _ new => new = s1.host.vars)
      ∧ (∀ addr n x, HostAt s s1 (.memRead addr n x) →
          StepAccesses s s1 (.read addr n) (s1.host.pos + 1) 0 fun w new => Assigned s1.host.vars new x (.word w))
      ∧ (∀ i bs b, HostAt s s1 (.wrb i bs) → bs[s1.host.sub]? = some b →
          StepAccesses s s1 (.write (s1.cfg.base + 0x10000 + i + s1.host.sub) 1 (b.setWidth 32))
            (if s1.host.sub + 1 < bs.length then s1.host.pos else s1.host.pos + 1)
            (if s1.host.sub + 1 < bs.length then s1.host.sub + 1 else 0) fun _ new => new = s1.host.vars)
      ∧ (∀ i n x win, (HostAt s s1 (.rdbIn i n x) ∧ win = 0x10000) ∨ (HostAt s s1 (.rdbOut i n x) ∧ win = 0x20000) →
          s1.host.sub < n → ∀ bs, (s1.host.sub = 0 ∧ bs = [] ∨ 0 < s1.host.sub ∧ assocGet x s1.host.vars = some (.bytes bs)) →
          StepAccesses s s1 (.read (s1.cfg.base + win + i + s1.host.sub) 1)
            (if s1.host.sub + 1 < n then s1.host.pos else s1.host.pos + 1)
            (if s1.host.sub + 1 < n then s1.host.sub + 1 else 0) fun w new =>
            Assigned s1.host.vars new x (.bytes (bs ++ [w.setWidth 8])))
      ∧ (∀ i x, HostAt s s1 (.rdbIn i 0 x) ∨ HostAt s s1 (.rdbOut i 0 x) →
          ∃ new, step s = .next { s1 with host := { prog := s1.host.prog, pos := s1.host.pos + 1, sub := 0, vars := new } }
            ∧ Assigned s1.host.vars new x (.bytes []))
      ∧ (∀ st : Stmt, HostAt s s1 st → (∃ l, st = .label l) ∨ (∃ i, st = .wrb i []) →
          step s = .next { s1 with host := { s1.host with pos := s1.host.pos + 1, sub := 0 } })
      ∧ (∀ x mask l w, HostAt s s1 (.bnz x mask l) → Masks s1.host.vars x w →
          (w &&& mask = 0 → step s = .next { s1 with host := { s1.host with pos := s1.host.pos + 1, sub := 0 } })
            ∧ (w &&& mask ≠ 0 →
                (∀ p : Nat, s1.host.prog[p]? = some (.label l) → (∀ q : Nat, q < p → s1.host.prog[q]? ≠ some (.label l)) →
                    step s = .next { s1 with host := { s1.host with pos := p, sub := 0 } })
                  ∧ ((∀ p : Nat, s1.host.prog[p]? ≠ some (.label l)) → step s = .refused (.undefinedLabel l))))
      ∧ (s.nextTurn = (.host, s1) → s1.host.prog[s1.host.pos]? = none → step s = .next s1)
end

