-- ==== Sys2Proof/Laws/State.lean ====
section
/-! SUPPORT. One lemma for each field and each update of the state, true by rfl, so that no later proof unfolds a record update. -/

namespace Sys2Proof.Machine

variable (s : State)

@[simp] theorem completeOk_eq (fl : DecodeFlags) : s.completeOk fl = s.finish .ok fl := rfl
@[simp] theorem raiseError_eq (e : Err) (fl : DecodeFlags) : s.raiseError e fl = s.finish e fl := rfl
@[simp] theorem illegalOp_eq : s.illegalOp = s.finish .illegalOp .clear := rfl

@[simp] theorem finish_ctrl (e : Err) (fl : DecodeFlags) : (s.finish e fl).ctrl = s.ctrl := rfl
@[simp] theorem finish_status (e : Err) (fl : DecodeFlags) : (s.finish e fl).status = { err := e, done := true, busy := false, flags := fl, csumSticky := s.status.csumSticky } := rfl
@[simp] theorem finish_op (e : Err) (fl : DecodeFlags) : (s.finish e fl).op = s.op := rfl
@[simp] theorem finish_ioff (e : Err) (fl : DecodeFlags) : (s.finish e fl).ioff = s.ioff := rfl
@[simp] theorem finish_ilen (e : Err) (fl : DecodeFlags) : (s.finish e fl).ilen = s.ilen := rfl
@[simp] theorem finish_olen (e : Err) (fl : DecodeFlags) : (s.finish e fl).olen = s.olen := rfl
@[simp] theorem finish_arg (e : Err) (fl : DecodeFlags) : (s.finish e fl).arg = s.arg := rfl
@[simp] theorem finish_result (e : Err) (fl : DecodeFlags) : (s.finish e fl).result = s.result := rfl
@[simp] theorem finish_hdr (e : Err) (fl : DecodeFlags) : (s.finish e fl).hdr = s.hdr := rfl
@[simp] theorem finish_envLen (e : Err) (fl : DecodeFlags) : (s.finish e fl).envLen = s.envLen := rfl
@[simp] theorem finish_ts (e : Err) (fl : DecodeFlags) : (s.finish e fl).ts = s.ts := rfl
@[simp] theorem finish_tsConv (e : Err) (fl : DecodeFlags) : (s.finish e fl).tsConv = s.tsConv := rfl
@[simp] theorem finish_recd (e : Err) (fl : DecodeFlags) : (s.finish e fl).recd = s.recd := rfl
@[simp] theorem finish_ibuf (e : Err) (fl : DecodeFlags) : (s.finish e fl).ibuf = s.ibuf := rfl
@[simp] theorem finish_obuf (e : Err) (fl : DecodeFlags) : (s.finish e fl).obuf = s.obuf := rfl
@[simp] theorem finish_pending (e : Err) (fl : DecodeFlags) : (s.finish e fl).pending = none := rfl
@[simp] theorem finish_cfg (e : Err) (fl : DecodeFlags) : (s.finish e fl).cfg = s.cfg := rfl
@[simp] theorem finish_host (e : Err) (fl : DecodeFlags) : (s.finish e fl).host = s.host := rfl
@[simp] theorem finish_turns (e : Err) (fl : DecodeFlags) : (s.finish e fl).turns = s.turns := rfl
@[simp] theorem finish_delay (e : Err) (fl : DecodeFlags) : (s.finish e fl).delay = s.delay := rfl
@[simp] theorem finish_started (e : Err) (fl : DecodeFlags) : (s.finish e fl).started = s.started := rfl
@[simp] theorem finish_epoch (e : Err) (fl : DecodeFlags) : (s.finish e fl).epoch = s.epoch := rfl

@[simp] theorem noteMismatch_ctrl (b : Bool) : (s.noteMismatch b).ctrl = s.ctrl := rfl
@[simp] theorem noteMismatch_status (b : Bool) : (s.noteMismatch b).status = { s.status with csumSticky := s.status.csumSticky || b } := rfl
@[simp] theorem noteMismatch_op (b : Bool) : (s.noteMismatch b).op = s.op := rfl
@[simp] theorem noteMismatch_ioff (b : Bool) : (s.noteMismatch b).ioff = s.ioff := rfl
@[simp] theorem noteMismatch_ilen (b : Bool) : (s.noteMismatch b).ilen = s.ilen := rfl
@[simp] theorem noteMismatch_olen (b : Bool) : (s.noteMismatch b).olen = s.olen := rfl
@[simp] theorem noteMismatch_arg (b : Bool) : (s.noteMismatch b).arg = s.arg := rfl
@[simp] theorem noteMismatch_result (b : Bool) : (s.noteMismatch b).result = s.result := rfl
@[simp] theorem noteMismatch_hdr (b : Bool) : (s.noteMismatch b).hdr = s.hdr := rfl
@[simp] theorem noteMismatch_envLen (b : Bool) : (s.noteMismatch b).envLen = s.envLen := rfl
@[simp] theorem noteMismatch_ts (b : Bool) : (s.noteMismatch b).ts = s.ts := rfl
@[simp] theorem noteMismatch_tsConv (b : Bool) : (s.noteMismatch b).tsConv = s.tsConv := rfl
@[simp] theorem noteMismatch_recd (b : Bool) : (s.noteMismatch b).recd = s.recd := rfl
@[simp] theorem noteMismatch_ibuf (b : Bool) : (s.noteMismatch b).ibuf = s.ibuf := rfl
@[simp] theorem noteMismatch_obuf (b : Bool) : (s.noteMismatch b).obuf = s.obuf := rfl
@[simp] theorem noteMismatch_pending (b : Bool) : (s.noteMismatch b).pending = s.pending := rfl
@[simp] theorem noteMismatch_cfg (b : Bool) : (s.noteMismatch b).cfg = s.cfg := rfl
@[simp] theorem noteMismatch_host (b : Bool) : (s.noteMismatch b).host = s.host := rfl
@[simp] theorem noteMismatch_turns (b : Bool) : (s.noteMismatch b).turns = s.turns := rfl
@[simp] theorem noteMismatch_delay (b : Bool) : (s.noteMismatch b).delay = s.delay := rfl
@[simp] theorem noteMismatch_started (b : Bool) : (s.noteMismatch b).started = s.started := rfl
@[simp] theorem noteMismatch_epoch (b : Bool) : (s.noteMismatch b).epoch = s.epoch := rfl

@[simp] theorem startOp_ctrl (w : Word) : (s.startOp w).ctrl = s.ctrl := rfl
@[simp] theorem startOp_status (w : Word) : (s.startOp w).status = { s.status with busy := true, done := false } := rfl
@[simp] theorem startOp_op (w : Word) : (s.startOp w).op = w := rfl
@[simp] theorem startOp_ioff (w : Word) : (s.startOp w).ioff = s.ioff := rfl
@[simp] theorem startOp_ilen (w : Word) : (s.startOp w).ilen = s.ilen := rfl
@[simp] theorem startOp_olen (w : Word) : (s.startOp w).olen = s.olen := rfl
@[simp] theorem startOp_arg (w : Word) : (s.startOp w).arg = s.arg := rfl
@[simp] theorem startOp_result (w : Word) : (s.startOp w).result = s.result := rfl
@[simp] theorem startOp_hdr (w : Word) : (s.startOp w).hdr = s.hdr := rfl
@[simp] theorem startOp_envLen (w : Word) : (s.startOp w).envLen = s.envLen := rfl
@[simp] theorem startOp_ts (w : Word) : (s.startOp w).ts = s.ts := rfl
@[simp] theorem startOp_tsConv (w : Word) : (s.startOp w).tsConv = s.tsConv := rfl
@[simp] theorem startOp_recd (w : Word) : (s.startOp w).recd = s.recd := rfl
@[simp] theorem startOp_ibuf (w : Word) : (s.startOp w).ibuf = s.ibuf := rfl
@[simp] theorem startOp_obuf (w : Word) : (s.startOp w).obuf = s.obuf := rfl
@[simp] theorem startOp_pending (w : Word) : (s.startOp w).pending = some w := rfl
@[simp] theorem startOp_cfg (w : Word) : (s.startOp w).cfg = s.cfg := rfl
@[simp] theorem startOp_host (w : Word) : (s.startOp w).host = s.host := rfl
@[simp] theorem startOp_turns (w : Word) : (s.startOp w).turns = s.turns := rfl
@[simp] theorem startOp_delay (w : Word) : (s.startOp w).delay = Config.latency s.started := rfl
@[simp] theorem startOp_started (w : Word) : (s.startOp w).started = s.started + 1 := rfl
@[simp] theorem startOp_epoch (w : Word) : (s.startOp w).epoch = s.epoch := rfl

@[simp] theorem setTime_ctrl (t : Civil) (c : MonthConv) : (s.setTime t c).ctrl = s.ctrl := rfl
@[simp] theorem setTime_status (t : Civil) (c : MonthConv) : (s.setTime t c).status = s.status := rfl
@[simp] theorem setTime_op (t : Civil) (c : MonthConv) : (s.setTime t c).op = s.op := rfl
@[simp] theorem setTime_ioff (t : Civil) (c : MonthConv) : (s.setTime t c).ioff = s.ioff := rfl
@[simp] theorem setTime_ilen (t : Civil) (c : MonthConv) : (s.setTime t c).ilen = s.ilen := rfl
@[simp] theorem setTime_olen (t : Civil) (c : MonthConv) : (s.setTime t c).olen = s.olen := rfl
@[simp] theorem setTime_arg (t : Civil) (c : MonthConv) : (s.setTime t c).arg = s.arg := rfl
@[simp] theorem setTime_result (t : Civil) (c : MonthConv) : (s.setTime t c).result = s.result := rfl
@[simp] theorem setTime_hdr (t : Civil) (c : MonthConv) : (s.setTime t c).hdr = s.hdr := rfl
@[simp] theorem setTime_envLen (t : Civil) (c : MonthConv) : (s.setTime t c).envLen = s.envLen := rfl
@[simp] theorem setTime_ts (t : Civil) (c : MonthConv) : (s.setTime t c).ts = t.bank := rfl
@[simp] theorem setTime_tsConv (t : Civil) (c : MonthConv) : (s.setTime t c).tsConv = c := rfl
@[simp] theorem setTime_recd (t : Civil) (c : MonthConv) : (s.setTime t c).recd = s.recd := rfl
@[simp] theorem setTime_ibuf (t : Civil) (c : MonthConv) : (s.setTime t c).ibuf = s.ibuf := rfl
@[simp] theorem setTime_obuf (t : Civil) (c : MonthConv) : (s.setTime t c).obuf = s.obuf := rfl
@[simp] theorem setTime_pending (t : Civil) (c : MonthConv) : (s.setTime t c).pending = s.pending := rfl
@[simp] theorem setTime_cfg (t : Civil) (c : MonthConv) : (s.setTime t c).cfg = s.cfg := rfl
@[simp] theorem setTime_host (t : Civil) (c : MonthConv) : (s.setTime t c).host = s.host := rfl
@[simp] theorem setTime_turns (t : Civil) (c : MonthConv) : (s.setTime t c).turns = s.turns := rfl
@[simp] theorem setTime_delay (t : Civil) (c : MonthConv) : (s.setTime t c).delay = s.delay := rfl
@[simp] theorem setTime_started (t : Civil) (c : MonthConv) : (s.setTime t c).started = s.started := rfl
@[simp] theorem setTime_epoch (t : Civil) (c : MonthConv) : (s.setTime t c).epoch = s.epoch := rfl

@[simp] theorem setResult_ctrl (v : Word) : (s.setResult v).ctrl = s.ctrl := rfl
@[simp] theorem setResult_status (v : Word) : (s.setResult v).status = s.status := rfl
@[simp] theorem setResult_op (v : Word) : (s.setResult v).op = s.op := rfl
@[simp] theorem setResult_ioff (v : Word) : (s.setResult v).ioff = s.ioff := rfl
@[simp] theorem setResult_ilen (v : Word) : (s.setResult v).ilen = s.ilen := rfl
@[simp] theorem setResult_olen (v : Word) : (s.setResult v).olen = s.olen := rfl
@[simp] theorem setResult_arg (v : Word) : (s.setResult v).arg = s.arg := rfl
@[simp] theorem setResult_result (v : Word) : (s.setResult v).result = v := rfl
@[simp] theorem setResult_hdr (v : Word) : (s.setResult v).hdr = s.hdr := rfl
@[simp] theorem setResult_envLen (v : Word) : (s.setResult v).envLen = s.envLen := rfl
@[simp] theorem setResult_ts (v : Word) : (s.setResult v).ts = s.ts := rfl
@[simp] theorem setResult_tsConv (v : Word) : (s.setResult v).tsConv = s.tsConv := rfl
@[simp] theorem setResult_recd (v : Word) : (s.setResult v).recd = s.recd := rfl
@[simp] theorem setResult_ibuf (v : Word) : (s.setResult v).ibuf = s.ibuf := rfl
@[simp] theorem setResult_obuf (v : Word) : (s.setResult v).obuf = s.obuf := rfl
@[simp] theorem setResult_pending (v : Word) : (s.setResult v).pending = s.pending := rfl
@[simp] theorem setResult_cfg (v : Word) : (s.setResult v).cfg = s.cfg := rfl
@[simp] theorem setResult_host (v : Word) : (s.setResult v).host = s.host := rfl
@[simp] theorem setResult_turns (v : Word) : (s.setResult v).turns = s.turns := rfl
@[simp] theorem setResult_delay (v : Word) : (s.setResult v).delay = s.delay := rfl
@[simp] theorem setResult_started (v : Word) : (s.setResult v).started = s.started := rfl
@[simp] theorem setResult_epoch (v : Word) : (s.setResult v).epoch = s.epoch := rfl

@[simp] theorem commitEncode_ctrl (out : List Byte) (c e : Half) : (s.commitEncode out c e).ctrl = s.ctrl := rfl
@[simp] theorem commitEncode_status (out : List Byte) (c e : Half) : (s.commitEncode out c e).status = s.status := rfl
@[simp] theorem commitEncode_op (out : List Byte) (c e : Half) : (s.commitEncode out c e).op = s.op := rfl
@[simp] theorem commitEncode_ioff (out : List Byte) (c e : Half) : (s.commitEncode out c e).ioff = s.ioff := rfl
@[simp] theorem commitEncode_ilen (out : List Byte) (c e : Half) : (s.commitEncode out c e).ilen = s.ilen := rfl
@[simp] theorem commitEncode_olen (out : List Byte) (c e : Half) : (s.commitEncode out c e).olen = BitVec.ofNat 32 out.length := rfl
@[simp] theorem commitEncode_arg (out : List Byte) (c e : Half) : (s.commitEncode out c e).arg = s.arg := rfl
@[simp] theorem commitEncode_result (out : List Byte) (c e : Half) : (s.commitEncode out c e).result = c.setWidth 32 := rfl
@[simp] theorem commitEncode_hdr (out : List Byte) (c e : Half) : (s.commitEncode out c e).hdr = { s.hdr with csum := c } := rfl
@[simp] theorem commitEncode_envLen (out : List Byte) (c e : Half) : (s.commitEncode out c e).envLen = e := rfl
@[simp] theorem commitEncode_ts (out : List Byte) (c e : Half) : (s.commitEncode out c e).ts = s.ts := rfl
@[simp] theorem commitEncode_tsConv (out : List Byte) (c e : Half) : (s.commitEncode out c e).tsConv = s.tsConv := rfl
@[simp] theorem commitEncode_recd (out : List Byte) (c e : Half) : (s.commitEncode out c e).recd = s.recd := rfl
@[simp] theorem commitEncode_ibuf (out : List Byte) (c e : Half) : (s.commitEncode out c e).ibuf = s.ibuf := rfl
@[simp] theorem commitEncode_obuf (out : List Byte) (c e : Half) : (s.commitEncode out c e).obuf = writeBytes s.obuf 0 out := rfl
@[simp] theorem commitEncode_pending (out : List Byte) (c e : Half) : (s.commitEncode out c e).pending = s.pending := rfl
@[simp] theorem commitEncode_cfg (out : List Byte) (c e : Half) : (s.commitEncode out c e).cfg = s.cfg := rfl
@[simp] theorem commitEncode_host (out : List Byte) (c e : Half) : (s.commitEncode out c e).host = s.host := rfl
@[simp] theorem commitEncode_turns (out : List Byte) (c e : Half) : (s.commitEncode out c e).turns = s.turns := rfl
@[simp] theorem commitEncode_delay (out : List Byte) (c e : Half) : (s.commitEncode out c e).delay = s.delay := rfl
@[simp] theorem commitEncode_started (out : List Byte) (c e : Half) : (s.commitEncode out c e).started = s.started := rfl
@[simp] theorem commitEncode_epoch (out : List Byte) (c e : Half) : (s.commitEncode out c e).epoch = s.epoch := rfl

@[simp] theorem commitDecode_ctrl (v : FrameView) : (s.commitDecode v).ctrl = s.ctrl := rfl
@[simp] theorem commitDecode_status (v : FrameView) : (s.commitDecode v).status = s.status := rfl
@[simp] theorem commitDecode_op (v : FrameView) : (s.commitDecode v).op = s.op := rfl
@[simp] theorem commitDecode_ioff (v : FrameView) : (s.commitDecode v).ioff = s.ioff := rfl
@[simp] theorem commitDecode_ilen (v : FrameView) : (s.commitDecode v).ilen = s.ilen := rfl
@[simp] theorem commitDecode_olen (v : FrameView) : (s.commitDecode v).olen = BitVec.ofNat 32 v.payload.length := rfl
@[simp] theorem commitDecode_arg (v : FrameView) : (s.commitDecode v).arg = s.arg := rfl
@[simp] theorem commitDecode_result (v : FrameView) : (s.commitDecode v).result = v.computed.setWidth 32 := rfl
@[simp] theorem commitDecode_hdr (v : FrameView) : (s.commitDecode v).hdr = v.hdr := rfl
@[simp] theorem commitDecode_envLen (v : FrameView) : (s.commitDecode v).envLen = v.envLen := rfl
@[simp] theorem commitDecode_ts (v : FrameView) : (s.commitDecode v).ts = s.ts := rfl
@[simp] theorem commitDecode_tsConv (v : FrameView) : (s.commitDecode v).tsConv = s.tsConv := rfl
@[simp] theorem commitDecode_recd (v : FrameView) : (s.commitDecode v).recd = s.recd := rfl
@[simp] theorem commitDecode_ibuf (v : FrameView) : (s.commitDecode v).ibuf = s.ibuf := rfl
@[simp] theorem commitDecode_obuf (v : FrameView) : (s.commitDecode v).obuf = writeBytes s.obuf 0 v.payload := rfl
@[simp] theorem commitDecode_pending (v : FrameView) : (s.commitDecode v).pending = s.pending := rfl
@[simp] theorem commitDecode_cfg (v : FrameView) : (s.commitDecode v).cfg = s.cfg := rfl
@[simp] theorem commitDecode_host (v : FrameView) : (s.commitDecode v).host = s.host := rfl
@[simp] theorem commitDecode_turns (v : FrameView) : (s.commitDecode v).turns = s.turns := rfl
@[simp] theorem commitDecode_delay (v : FrameView) : (s.commitDecode v).delay = s.delay := rfl
@[simp] theorem commitDecode_started (v : FrameView) : (s.commitDecode v).started = s.started := rfl
@[simp] theorem commitDecode_epoch (v : FrameView) : (s.commitDecode v).epoch = s.epoch := rfl

@[simp] theorem withHost_ctrl (h : HostAgent) : (s.withHost h).ctrl = s.ctrl := rfl
@[simp] theorem withHost_status (h : HostAgent) : (s.withHost h).status = s.status := rfl
@[simp] theorem withHost_op (h : HostAgent) : (s.withHost h).op = s.op := rfl
@[simp] theorem withHost_ioff (h : HostAgent) : (s.withHost h).ioff = s.ioff := rfl
@[simp] theorem withHost_ilen (h : HostAgent) : (s.withHost h).ilen = s.ilen := rfl
@[simp] theorem withHost_olen (h : HostAgent) : (s.withHost h).olen = s.olen := rfl
@[simp] theorem withHost_arg (h : HostAgent) : (s.withHost h).arg = s.arg := rfl
@[simp] theorem withHost_result (h : HostAgent) : (s.withHost h).result = s.result := rfl
@[simp] theorem withHost_hdr (h : HostAgent) : (s.withHost h).hdr = s.hdr := rfl
@[simp] theorem withHost_envLen (h : HostAgent) : (s.withHost h).envLen = s.envLen := rfl
@[simp] theorem withHost_ts (h : HostAgent) : (s.withHost h).ts = s.ts := rfl
@[simp] theorem withHost_tsConv (h : HostAgent) : (s.withHost h).tsConv = s.tsConv := rfl
@[simp] theorem withHost_recd (h : HostAgent) : (s.withHost h).recd = s.recd := rfl
@[simp] theorem withHost_ibuf (h : HostAgent) : (s.withHost h).ibuf = s.ibuf := rfl
@[simp] theorem withHost_obuf (h : HostAgent) : (s.withHost h).obuf = s.obuf := rfl
@[simp] theorem withHost_pending (h : HostAgent) : (s.withHost h).pending = s.pending := rfl
@[simp] theorem withHost_cfg (h : HostAgent) : (s.withHost h).cfg = s.cfg := rfl
@[simp] theorem withHost_host (h : HostAgent) : (s.withHost h).host = h := rfl
@[simp] theorem withHost_turns (h : HostAgent) : (s.withHost h).turns = s.turns := rfl
@[simp] theorem withHost_delay (h : HostAgent) : (s.withHost h).delay = s.delay := rfl
@[simp] theorem withHost_started (h : HostAgent) : (s.withHost h).started = s.started := rfl
@[simp] theorem withHost_epoch (h : HostAgent) : (s.withHost h).epoch = s.epoch := rfl

@[simp] theorem assertReset_ctrl : s.assertReset.ctrl = State.reset.ctrl := rfl
@[simp] theorem assertReset_status : s.assertReset.status = State.reset.status := rfl
@[simp] theorem assertReset_op : s.assertReset.op = State.reset.op := rfl
@[simp] theorem assertReset_ioff : s.assertReset.ioff = State.reset.ioff := rfl
@[simp] theorem assertReset_ilen : s.assertReset.ilen = State.reset.ilen := rfl
@[simp] theorem assertReset_olen : s.assertReset.olen = State.reset.olen := rfl
@[simp] theorem assertReset_arg : s.assertReset.arg = State.reset.arg := rfl
@[simp] theorem assertReset_result : s.assertReset.result = State.reset.result := rfl
@[simp] theorem assertReset_hdr : s.assertReset.hdr = State.reset.hdr := rfl
@[simp] theorem assertReset_envLen : s.assertReset.envLen = State.reset.envLen := rfl
@[simp] theorem assertReset_ts : s.assertReset.ts = State.reset.ts := rfl
@[simp] theorem assertReset_tsConv : s.assertReset.tsConv = State.reset.tsConv := rfl
@[simp] theorem assertReset_recd : s.assertReset.recd = State.reset.recd := rfl
@[simp] theorem assertReset_ibuf : s.assertReset.ibuf = State.reset.ibuf := rfl
@[simp] theorem assertReset_obuf : s.assertReset.obuf = State.reset.obuf := rfl
@[simp] theorem assertReset_pending : s.assertReset.pending = State.reset.pending := rfl
@[simp] theorem assertReset_cfg : s.assertReset.cfg = s.cfg := rfl
@[simp] theorem assertReset_host : s.assertReset.host = s.host := rfl
@[simp] theorem assertReset_turns : s.assertReset.turns = s.turns := rfl
@[simp] theorem assertReset_delay : s.assertReset.delay = State.reset.delay := rfl
@[simp] theorem assertReset_started : s.assertReset.started = s.started := rfl
@[simp] theorem assertReset_epoch : s.assertReset.epoch = s.epoch + 1 := rfl

@[simp] theorem commitParse_ctrl (p : Parsed) : (s.commitParse p).ctrl = s.ctrl := by
  unfold State.commitParse; cases p.time <;> rfl
@[simp] theorem commitParse_status (p : Parsed) : (s.commitParse p).status = s.status := by
  unfold State.commitParse; cases p.time <;> rfl
@[simp] theorem commitParse_op (p : Parsed) : (s.commitParse p).op = s.op := by
  unfold State.commitParse; cases p.time <;> rfl
@[simp] theorem commitParse_ioff (p : Parsed) : (s.commitParse p).ioff = s.ioff := by
  unfold State.commitParse; cases p.time <;> rfl
@[simp] theorem commitParse_ilen (p : Parsed) : (s.commitParse p).ilen = s.ilen := by
  unfold State.commitParse; cases p.time <;> rfl
@[simp] theorem commitParse_olen (p : Parsed) : (s.commitParse p).olen = s.olen := by
  unfold State.commitParse; cases p.time <;> rfl
@[simp] theorem commitParse_arg (p : Parsed) : (s.commitParse p).arg = s.arg := by
  unfold State.commitParse; cases p.time <;> rfl
@[simp] theorem commitParse_result (p : Parsed) : (s.commitParse p).result = s.result := by
  unfold State.commitParse; cases p.time <;> rfl
@[simp] theorem commitParse_hdr (p : Parsed) : (s.commitParse p).hdr = s.hdr := by
  unfold State.commitParse; cases p.time <;> rfl
@[simp] theorem commitParse_envLen (p : Parsed) : (s.commitParse p).envLen = s.envLen := by
  unfold State.commitParse; cases p.time <;> rfl
@[simp] theorem commitParse_recd (p : Parsed) : (s.commitParse p).recd = { p.recd with hasTime := p.time.isSome } := by
  unfold State.commitParse; cases p.time <;> rfl
@[simp] theorem commitParse_ibuf (p : Parsed) : (s.commitParse p).ibuf = s.ibuf := by
  unfold State.commitParse; cases p.time <;> rfl
@[simp] theorem commitParse_obuf (p : Parsed) : (s.commitParse p).obuf = s.obuf := by
  unfold State.commitParse; cases p.time <;> rfl
@[simp] theorem commitParse_pending (p : Parsed) : (s.commitParse p).pending = s.pending := by
  unfold State.commitParse; cases p.time <;> rfl
@[simp] theorem commitParse_cfg (p : Parsed) : (s.commitParse p).cfg = s.cfg := by
  unfold State.commitParse; cases p.time <;> rfl
@[simp] theorem commitParse_host (p : Parsed) : (s.commitParse p).host = s.host := by
  unfold State.commitParse; cases p.time <;> rfl
@[simp] theorem commitParse_turns (p : Parsed) : (s.commitParse p).turns = s.turns := by
  unfold State.commitParse; cases p.time <;> rfl
@[simp] theorem commitParse_delay (p : Parsed) : (s.commitParse p).delay = s.delay := by
  unfold State.commitParse; cases p.time <;> rfl
@[simp] theorem commitParse_started (p : Parsed) : (s.commitParse p).started = s.started := by
  unfold State.commitParse; cases p.time <;> rfl
@[simp] theorem commitParse_epoch (p : Parsed) : (s.commitParse p).epoch = s.epoch := by
  unfold State.commitParse; cases p.time <;> rfl

theorem commitParse_ts_some (p : Parsed) (t : Civil) (c : MonthConv) (h : p.time = some (t, c)) :
    (s.commitParse p).ts = t.bank ∧ (s.commitParse p).tsConv = c := by
  unfold State.commitParse; rw [h]; exact ⟨rfl, rfl⟩

theorem commitParse_ts_none (p : Parsed) (h : p.time = none) :
    (s.commitParse p).ts = s.ts ∧ (s.commitParse p).tsConv = s.tsConv := by
  unfold State.commitParse; rw [h]; exact ⟨rfl, rfl⟩

end Sys2Proof.Machine
end

