-- ==== Sys2Proof/Laws/Memory.lean ====
section
/-! SUPPORT. The laws of the sorted lists: what is read after a write, and that every write keeps the canonical form. -/

namespace Sys2Proof.Machine

variable {α : Type}

theorem assocGet_assocSet (k j : Nat) (v : α) (m : List (Nat × α)) :
    assocGet j (assocSet k v m) = if j = k then some v else assocGet j m := by
  induction m with
  | nil => simp only [assocSet, assocGet, eq_comm]
  | cons c rest ih =>
    simp only [assocSet]
    split_ifs with h1 h2 h3 h3 h3 <;> simp only [assocGet, ih] <;> split_ifs <;> first | rfl | omega

theorem mem_assocSet (k : Nat) (v : α) (m : List (Nat × α)) {c : Nat × α} (h : c ∈ assocSet k v m) :
    c = (k, v) ∨ c ∈ m := by
  induction m with
  | nil => simpa [assocSet] using h
  | cons d rest ih =>
    simp only [assocSet] at h
    split_ifs at h
    · simpa using h
    · rcases List.mem_cons.1 h with h | h
      · exact .inl h
      · exact .inr (List.mem_cons_of_mem _ h)
    · rcases List.mem_cons.1 h with h | h
      · exact .inr (h ▸ List.mem_cons_self ..)
      · exact (ih h).imp id (List.mem_cons_of_mem _)

theorem rising_assocSet (k : Nat) (v : α) (m : List (Nat × α)) (hm : Rising m) : Rising (assocSet k v m) := by
  induction m with
  | nil => simp [assocSet]
  | cons c rest ih =>
    obtain ⟨hc, hrest⟩ := List.pairwise_cons.1 hm
    simp only [assocSet]
    split_ifs with h1 h2
    · exact List.pairwise_cons.2 ⟨fun d hd => by
        rcases List.mem_cons.1 hd with rfl | hd
        · exact h1
        · exact Nat.lt_trans h1 (hc d hd), hm⟩
    · exact List.pairwise_cons.2 ⟨fun d hd => by simpa [h2] using hc d hd, hrest⟩
    · refine List.pairwise_cons.2 ⟨fun d hd => ?_, ih hrest⟩
      rcases mem_assocSet k v rest hd with rfl | hd
      · simp only; omega
      · exact hc d hd

/-- Every write inside the buffer keeps the canonical form. -/
theorem wf_assocSet (n k : Nat) (v : Byte) (m : Memory) (hm : Memory.wf n m) (hk : k < n) : Memory.wf n (assocSet k v m) :=
  ⟨rising_assocSet k v m hm.1, fun c hc => by
    rcases mem_assocSet k v m hc with rfl | hc
    · exact hk
    · exact hm.2 c hc⟩

/-- A run of bytes written inside the buffer keeps the canonical form. -/
theorem wf_writeBytes (n : Nat) (bs : List Byte) :
    ∀ (i : Nat) (m : Memory), Memory.wf n m → i + bs.length ≤ n → Memory.wf n (writeBytes m i bs) := by
  induction bs with
  | nil => intro i m hm _; exact hm
  | cons b bs ih =>
    intro i m hm hi
    simp only [List.length_cons] at hi
    exact ih (i + 1) _ (wf_assocSet n i b m hm (by omega)) (by omega)

/-- The buffers right after reset are in canonical form. -/
theorem wf_reset (n : Nat) : Memory.wf n State.reset.ibuf ∧ Memory.wf n State.reset.obuf :=
  ⟨⟨List.Pairwise.nil, nofun⟩, List.Pairwise.nil, nofun⟩

/-- What a run of written bytes reads as: inside the run its bytes, elsewhere as before. -/
theorem assocGet_writeBytes (bs : List Byte) :
    ∀ (i : Nat) (m : Memory) (a : Nat),
      assocGet a (writeBytes m i bs) = if i ≤ a ∧ a < i + bs.length then bs[a - i]? else assocGet a m := by
  induction bs with
  | nil => intro i m a; rw [if_neg (by simp only [List.length_nil]; omega)]; rfl
  | cons b bs ih =>
    intro i m a
    simp only [writeBytes, ih, assocGet_assocSet, List.length_cons]
    by_cases h : a = i
    · subst h; rw [if_neg (by omega), if_pos rfl, if_pos (by omega)]; simp
    · by_cases h2 : i + 1 ≤ a ∧ a < i + 1 + bs.length
      · rw [if_pos h2, if_pos (by omega), show a - i = (a - (i + 1)) + 1 by omega, List.getElem?_cons_succ]
      · rw [if_neg h2, if_neg h, if_neg (by omega)]

/-- The output byte after a run of bytes was written into `OBUF`. -/
theorem obufByte_writeBytes (s : State) (i : Nat) (bs : List Byte) (a : Nat) :
    ({ s with obuf := writeBytes s.obuf i bs }).obufByte a
      = if i ≤ a ∧ a < i + bs.length then bs.getD (a - i) 0 else s.obufByte a := by
  unfold State.obufByte
  simp only [assocGet_writeBytes]
  by_cases h : i ≤ a ∧ a < i + bs.length
  · have hl : a - i < bs.length := by omega
    simp [h, List.getElem?_eq_getElem hl]
  · simp [h]

/-- The input byte after a run of bytes was written into `IBUF`. -/
theorem ibufByte_writeBytes (s : State) (i : Nat) (bs : List Byte) (a : Nat) :
    ({ s with ibuf := writeBytes s.ibuf i bs }).ibufByte a
      = if i ≤ a ∧ a < i + bs.length then bs.getD (a - i) 0 else s.ibufByte a := by
  unfold State.ibufByte
  simp only [assocGet_writeBytes]
  by_cases h : i ≤ a ∧ a < i + bs.length
  · have hl : a - i < bs.length := by omega
    simp [h, List.getElem?_eq_getElem hl]
  · simp [h]

/-- The host variables stay in canonical form whatever a statement stores. -/
theorem rising_store (sub : Nat) (v : Word) (vars : List (Nat × Value)) (st : Stmt) (h : Rising vars) :
    Rising (st.store sub v vars) := by
  cases st <;> simp only [Stmt.store] <;> first | exact h | exact rising_assocSet _ _ _ h

theorem rising_storeNone (vars : List (Nat × Value)) (st : Stmt) (h : Rising vars) : Rising (st.storeNone vars) := by
  cases st <;> simp only [Stmt.storeNone] <;> first | exact h | exact rising_assocSet _ _ _ h

end Sys2Proof.Machine
end

