-- ==== Sys2Proof/Laws/Bus.lean ====
section
/-! SUPPORT. The laws of the bus: what an access reaches, what it does, and what it is refused for. -/

namespace Sys2Proof.Machine

variable {s t : State}

/-- A well-formed register name is what the map gives at its offset. -/
theorem regAt_offset (r : Reg) (h : r.wf = true) : regAt r.offset = some r ∧ r.offset % 4 = 0 ∧ r.offset < 0x1000 := by
  cases r
  case recPassword k =>
    simp only [Reg.wf, Bool.and_eq_true, decide_eq_true_iff] at h
    obtain rfl | rfl : k = 0 ∨ k = 4 := by omega
    all_goals exact ⟨rfl, by decide, by decide⟩
  case recName k =>
    simp only [Reg.wf, Bool.and_eq_true, decide_eq_true_iff] at h
    obtain rfl | rfl | rfl | rfl | rfl | rfl : k = 0 ∨ k = 4 ∨ k = 8 ∨ k = 12 ∨ k = 16 ∨ k = 20 := by omega
    all_goals exact ⟨rfl, by decide, by decide⟩
  case recUserid k =>
    simp only [Reg.wf, Bool.and_eq_true, decide_eq_true_iff] at h
    obtain rfl | rfl | rfl : k = 0 ∨ k = 4 ∨ k = 8 := by omega
    all_goals exact ⟨rfl, by decide, by decide⟩
  all_goals exact ⟨rfl, by decide, by decide⟩

theorem bufAdmits_iff (p : Params) (i n : Nat) : bufAdmits p i n = true ↔ (n = 1 ∨ n = 2 ∨ n = 4) ∧ i % n = 0 ∧ i + n ≤ p.bufBytes := by
  simp [bufAdmits, and_assoc, or_assoc]

theorem busTarget_reg (p : Params) (r : Reg) (h : r.wf = true) : busTarget p (p.base + r.offset) 4 = some (.reg r) := by
  obtain ⟨h1, h2, h3⟩ := regAt_offset r h
  unfold busTarget
  rw [if_neg (by omega), if_pos (by omega), if_pos ⟨rfl, by omega⟩, show p.base + r.offset - p.base = r.offset by omega, h1]; rfl

theorem busTarget_in (p : Params) (i n : Nat) (hp : p.legal = true) (h : bufAdmits p i n = true) :
    busTarget p (p.base + 0x10000 + i) n = some (.inBuf i n) := by
  have hb : p.bufBytes ≤ 65536 := by simp [Params.legal] at hp; omega
  obtain ⟨h1, h2, h3⟩ := (bufAdmits_iff p i n).1 h
  unfold busTarget
  rw [if_neg (by omega), if_neg (by omega), if_pos (by omega), show p.base + 0x10000 + i - p.base - 0x10000 = i by omega, if_pos h]

theorem busTarget_out (p : Params) (i n : Nat) (hp : p.legal = true) (h : bufAdmits p i n = true) :
    busTarget p (p.base + 0x20000 + i) n = some (.outBuf i n) := by
  have hb : p.bufBytes ≤ 65536 := by simp [Params.legal] at hp; omega
  obtain ⟨h1, h2, h3⟩ := (bufAdmits_iff p i n).1 h
  unfold busTarget
  rw [if_neg (by omega), if_neg (by omega), if_neg (by omega), if_pos (by omega), show p.base + 0x20000 + i - p.base - 0x20000 = i by omega, if_pos h]

/-- What an admitted access reaches, and where. -/
theorem busTarget_cases {p : Params} {addr n : Nat} {T : Target} (h : busTarget p addr n = some T) :
    ∃ a, addr = p.base + a ∧
      ((n = 4 ∧ a % 4 = 0 ∧ ∃ r, regAt a = some r ∧ T = .reg r)
        ∨ (∃ i, a = 0x10000 + i ∧ bufAdmits p i n = true ∧ T = .inBuf i n)
        ∨ (∃ i, a = 0x20000 + i ∧ bufAdmits p i n = true ∧ T = .outBuf i n)) := by
  unfold busTarget at h
  simp only at h
  by_cases h0 : addr < p.base
  · rw [if_pos h0] at h; cases h
  refine ⟨addr - p.base, by omega, ?_⟩
  rw [if_neg h0] at h
  generalize addr - p.base = a at *
  by_cases h1 : a < 0x1000
  · rw [if_pos h1] at h
    by_cases h2 : n = 4 ∧ a % 4 = 0
    · rw [if_pos h2] at h
      obtain ⟨r, hr, rfl⟩ := Option.map_eq_some_iff.1 h
      exact .inl ⟨h2.1, h2.2, r, hr, rfl⟩
    · rw [if_neg h2] at h; cases h
  rw [if_neg h1] at h
  by_cases h2 : 0x10000 ≤ a ∧ a < 0x20000
  · rw [if_pos h2] at h
    by_cases h3 : bufAdmits p (a - 0x10000) n = true
    · rw [if_pos h3] at h
      exact .inr (.inl ⟨_, by omega, h3, (Option.some.inj h).symm⟩)
    · rw [if_neg h3] at h; cases h
  rw [if_neg h2] at h
  by_cases h2 : 0x20000 ≤ a ∧ a < 0x30000
  · rw [if_pos h2] at h
    by_cases h3 : bufAdmits p (a - 0x20000) n = true
    · rw [if_pos h3] at h
      exact .inr (.inr ⟨_, by omega, h3, (Option.some.inj h).symm⟩)
    · rw [if_neg h3] at h; cases h
  rw [if_neg h2] at h; cases h

theorem bus_read (s : State) (a n : Nat) (T : Target) (hb : s.status.busy = false) (h : busTarget s.cfg a n = some T) :
    s.bus (.read a n) = .ok (s, s.readTarget T) := by
  unfold State.bus; simp [hb, BusOp.addr, BusOp.width, h]

theorem bus_write (s : State) (a n : Nat) (v : Word) (T : Target) (hb : s.status.busy = false) (h : busTarget s.cfg a n = some T) :
    s.bus (.write a n v) = .ok (s.writeTarget v T, 0) := by
  unfold State.bus; simp [hb, BusOp.addr, BusOp.width, h]

theorem bus_error {op : BusOp} {f : Fault} (h : s.bus op = .error f) :
    (s.status.busy = true ∧ isStatusRead s.cfg op = false ∧ f = .hostHazard op) ∨ (busTarget s.cfg op.addr op.width = none ∧ f = .busError op) := by
  unfold State.bus at h
  split at h
  · rename_i hc; rw [Bool.and_eq_true, Bool.not_eq_true'] at hc; injection h with h; exact .inl ⟨hc.1, hc.2, h.symm⟩
  · split at h
    · rename_i hn; injection h with h; exact .inr ⟨hn, h.symm⟩
    · split at h <;> cases h

/-- What one admitted access does to the state. -/
theorem bus_cases {op : BusOp} {v : Word} (h : s.bus op = .ok (t, v)) :
    t = s ∨ (s.status.busy = false ∧ ∃ r w, t = s.writeReg w r) ∨
      (s.status.busy = false ∧ ∃ i bs, i + bs.length ≤ s.cfg.bufBytes ∧ t = { s with ibuf := writeBytes s.ibuf i bs }) := by
  unfold State.bus at h
  split at h
  · cases h
  rename_i hc
  cases hT : busTarget s.cfg op.addr op.width with
  | none => rw [hT] at h; cases h
  | some T =>
    rw [hT] at h
    cases op with
    | read a n => cases h; exact .inl rfl
    | write a n w =>
      cases h
      have hb : s.status.busy = false := by
        cases hb : s.status.busy
        · rfl
        · exact absurd (by rw [hb]; rfl) hc
      cases T with
      | reg r => exact .inr (.inl ⟨hb, r, w, rfl⟩)
      | outBuf i n => exact .inl rfl
      | inBuf i m =>
        refine .inr (.inr ⟨hb, i, _, ?_, rfl⟩)
        obtain ⟨a', _, ⟨_, _, r, _, h⟩ | ⟨j, _, h, he⟩ | ⟨j, _, _, h⟩⟩ := busTarget_cases hT
        · cases h
        · injection he with h1 h2; subst h1; subst h2; have := ((bufAdmits_iff ..).1 h).2.2; simp only [BusOp.width] at this; simpa using this
        · cases h

/-- While an operation is pending the bus leaves the state alone. -/
theorem bus_busy {op : BusOp} {v : Word} (hb : s.status.busy = true) (h : s.bus op = .ok (t, v)) : t = s := by
  rcases bus_cases h with h | ⟨h, _⟩ | ⟨h, _⟩
  · exact h
  · rw [hb] at h; cases h
  · rw [hb] at h; cases h

theorem host_bus {op : BusOp} {v : Word} (h : s.bus op = .ok (t, v)) : t.host = s.host := by
  rcases bus_cases h with rfl | ⟨hb, r, w, rfl⟩ | ⟨hb, i, bs, hl, rfl⟩
  · rfl
  · cases r <;> rfl
  · rfl

end Sys2Proof.Machine
end

