-- ==== Sys2Proof/Laws/Decode.lean ====
section
/-! SUPPORT. The laws of words and bytes: a word and its four bytes, and that only an op code decodes. -/

namespace Sys2Proof

theorem wordOfBytes_bytesOfWord (w : Word) :
    wordOfBytes (w.extractLsb' 0 8) (w.extractLsb' 8 8) (w.extractLsb' 16 8) (w.extractLsb' 24 8) = w := by
  apply BitVec.eq_of_toNat_eq
  simp only [wordOfBytes, BitVec.extractLsb'_toNat, BitVec.toNat_ofNat, Nat.shiftRight_eq_div_pow]
  have := w.isLt
  omega

theorem bytesOfWord_wordOfBytes (a b c d : Byte) : bytesOfWord (wordOfBytes a b c d) = [a, b, c, d] := by
  have := a.isLt; have := b.isLt; have := c.isLt; have := d.isLt
  have h : ∀ k x, (x : Byte).toNat = (wordOfBytes a b c d).toNat / 2 ^ k % 256 → (wordOfBytes a b c d).extractLsb' k 8 = x := by
    intro k x hx
    apply BitVec.eq_of_toNat_eq
    rw [BitVec.extractLsb'_toNat, Nat.shiftRight_eq_div_pow, hx]
  unfold bytesOfWord
  rw [h 0 a, h 8 b, h 16 c, h 24 d] <;> simp only [wordOfBytes, BitVec.toNat_ofNat] <;> omega

theorem decode_ok {w : Word} {i : Instr} (h : decode w = .ok i) : w = encode i := by
  unfold decode at h
  split at h
  · rename_i row hrow
    cases h
    have hmem := List.mem_of_find?_eq_some hrow
    have heq := List.find?_some hrow
    have : ∀ r ∈ opTable, r.2 = encode r.1 := by decide
    rw [← this row hmem]; exact (by simpa using heq : row.2 = w).symm
  · cases h

end Sys2Proof
end

