-- ==== Sys2Proof/Laws/Operands.lean ====
section
/-! SUPPORT. The laws of the operand forms: slice, bytes, little-endian integers, text fields, checksum, timestamps. -/

namespace Sys2Proof.Machine

variable {s t : State}

theorem sliceInBounds_iff : s.sliceInBounds = true ↔ s.SliceFits := decide_eq_true_iff

@[simp] theorem slice_length (s : State) : s.slice.length = s.ilen.toNat := by simp [State.slice]

theorem byteAt_slice (s : State) (k : Nat) (h : k < s.ilen.toNat) : byteAt s.slice k = s.sliceByte k := by
  simp [byteAt, List.getD_eq_getElem?_getD, State.slice, h, State.sliceByte]

theorem byteAt_lt (B : List Byte) (k : Nat) : byteAt B k < 256 := (B.getD k 0).isLt

theorem byteAt_drop (B : List Byte) (d k : Nat) : byteAt (B.drop d) k = byteAt B (d + k) := by
  simp [byteAt, List.getD_eq_getElem?_getD, List.getElem?_drop]

theorem byteAt_take (B : List Byte) (n k : Nat) (h : k < n) : byteAt (B.take n) k = byteAt B k := by
  simp [byteAt, List.getD_eq_getElem?_getD, h]

theorem byteAt_append_right (A B : List Byte) (k : Nat) : byteAt (A ++ B) (A.length + k) = byteAt B k := by
  simp only [byteAt, List.getD_eq_getElem?_getD]
  rw [List.getElem?_append_right (by omega), Nat.add_sub_cancel_left]

theorem byteAt_append_left (A B : List Byte) (k : Nat) (h : k < A.length) : byteAt (A ++ B) k = byteAt A k := by
  simp [byteAt, List.getD_eq_getElem?_getD, List.getElem?_append_left h]

theorem byteAt_eq_getElem (B : List Byte) (k : Nat) (h : k < B.length) : byteAt B k = B[k].toNat := by
  simp [byteAt, h]

theorem ext_byteAt (A B : List Byte) (hl : A.length = B.length) (h : ∀ k, k < A.length → byteAt A k = byteAt B k) : A = B := by
  apply List.ext_getElem hl
  intro k hk hk'
  have := h k hk
  rw [byteAt_eq_getElem _ _ hk, byteAt_eq_getElem _ _ hk'] at this
  exact BitVec.eq_of_toNat_eq this

theorem le16_slice (o : Nat) (h : o + 2 ≤ s.ilen.toNat) : le16 s.slice o = u16At s.sliceByte o := by
  unfold le16 u16At; rw [byteAt_slice s _ (by omega), byteAt_slice s _ (by omega)]

theorem le32_slice (o : Nat) (h : o + 4 ≤ s.ilen.toNat) : le32 s.slice o = u32At s.sliceByte o := by
  unfold le32 u32At
  rw [byteAt_slice s _ (by omega), byteAt_slice s _ (by omega), byteAt_slice s _ (by omega), byteAt_slice s _ (by omega)]

theorem le16_lt (B : List Byte) (o : Nat) : le16 B o < 65536 := by
  have := byteAt_lt B o; have := byteAt_lt B (o + 1); unfold le16; omega

theorem le32_lt (B : List Byte) (o : Nat) : le32 B o < 4294967296 := by
  have := byteAt_lt B o; have := byteAt_lt B (o + 1); have := byteAt_lt B (o + 2); have := byteAt_lt B (o + 3); unfold le32; omega

theorem u16At_lt (s : State) (k : Nat) : u16At s.sliceByte k < 65536 := by
  have h1 : s.sliceByte k < 256 := (s.ibufByte _).isLt
  have h2 : s.sliceByte (k + 1) < 256 := (s.ibufByte _).isLt
  unfold u16At; omega

theorem toNat_le16 (o : Nat) (h : o + 2 ≤ s.ilen.toNat) : ((BitVec.ofNat 16 (le16 s.slice o)).setWidth 32).toNat = u16At s.sliceByte o := by
  rw [← le16_slice o h]; have := le16_lt s.slice o; simp; omega

theorem toNat_le16w (o : Nat) (h : o + 2 ≤ s.ilen.toNat) : (BitVec.ofNat 32 (le16 s.slice o)).toNat = u16At s.sliceByte o := by
  rw [← le16_slice o h]; have := le16_lt s.slice o; simp; omega

theorem toNat_le32 (o : Nat) (h : o + 4 ≤ s.ilen.toNat) : (BitVec.ofNat 32 (le32 s.slice o)).toNat = u32At s.sliceByte o := by
  rw [← le32_slice o h]; have := le32_lt s.slice o; simp; omega

theorem toNat_byteAt (o : Nat) (h : o < s.ilen.toNat) : ((BitVec.ofNat 8 (byteAt s.slice o)).setWidth 32).toNat = s.sliceByte o := by
  rw [← byteAt_slice s o h]; have := byteAt_lt s.slice o; simp; omega

theorem toNat_byteAtw (o : Nat) (h : o < s.ilen.toNat) : (BitVec.ofNat 32 (byteAt s.slice o)).toNat = s.sliceByte o := by
  rw [← byteAt_slice s o h]; have := byteAt_lt s.slice o; simp; omega

theorem takeWhile_isText (L : List Byte) :
    (L.takeWhile fun c => c != 0).length ≤ L.length
      ∧ (∀ k, k < (L.takeWhile fun c => c != 0).length → byteAt (L.takeWhile fun c => c != 0) k = byteAt L k ∧ byteAt L k ≠ 0)
      ∧ ((L.takeWhile fun c => c != 0).length < L.length → byteAt L (L.takeWhile fun c => c != 0).length = 0) := by
  induction L with
  | nil => simp
  | cons c L ih =>
    by_cases hc : c = 0
    · subst hc; simp [byteAt]
    · have hc' : c.toNat ≠ 0 := fun h => hc (BitVec.eq_of_toNat_eq h)
      obtain ⟨h1, h2, h3⟩ := ih
      rw [List.takeWhile_cons_of_pos (by simpa using hc)]
      refine ⟨by simpa using h1, fun k hk => ?_, fun h => ?_⟩
      · cases k with
        | zero => exact ⟨rfl, hc'⟩
        | succ k => exact h2 k (by simpa using hk)
      · exact h3 (by simpa using h)

/-- `asciiz` inside the bytes. -/
theorem isText_asciiz (B : List Byte) (a e : Nat) (h : a ≤ e) (he : e ≤ B.length) : IsText (byteAt B) a e (asciiz B a e) := by
  obtain ⟨h1, h2, h3⟩ := takeWhile_isText ((B.drop a).take (e - a))
  have hl : ((B.drop a).take (e - a)).length = e - a := by simp; omega
  rw [hl] at h1 h3
  unfold IsText asciiz
  refine ⟨by omega, fun k hk => ?_, fun hk => ?_⟩
  · have := h2 k hk
    rw [byteAt_take _ _ _ (by omega), byteAt_drop] at this
    exact this
  · have := h3 (by omega)
    rw [byteAt_take _ _ _ (by omega), byteAt_drop] at this
    exact this

theorem isText_congr (B C : Nat → Nat) (a e : Nat) (bs : List Byte) (h : ∀ k, a ≤ k → k < e → B k = C k) (hB : IsText B a e bs) : IsText C a e bs := by
  obtain ⟨h1, h2, h3⟩ := hB
  refine ⟨h1, fun k hk => ?_, fun hk => ?_⟩
  · rw [← h (a + k) (by omega) (by omega)]; exact h2 k hk
  · rw [← h _ (by omega) hk]; exact h3 hk

theorem isText_slice (a e : Nat) (h : a ≤ e) (he : e ≤ s.ilen.toNat) : IsText s.sliceByte a e (asciiz s.slice a e) :=
  isText_congr _ _ _ _ _ (fun k _ h2 => byteAt_slice s k (by omega)) (isText_asciiz _ a e h (by rwa [slice_length]))

theorem asciiz_drop (B : List Byte) (d a e : Nat) : asciiz (B.drop d) a e = asciiz B (d + a) (d + e) := by
  unfold asciiz; rw [List.drop_drop, show d + e - (d + a) = e - a by omega]

theorem stringOk_asciiz (B : List Byte) (a b w : Nat) (h : b ≤ a + w) : stringOk w (some (asciiz B a b)) := by
  intro bs hbs
  injection hbs with hbs
  subst hbs
  unfold asciiz
  constructor
  · have := (takeWhile_isText ((B.drop a).take (b - a))).1
    simp at this ⊢; omega
  · intro c hc
    have := List.mem_takeWhile_imp hc
    simpa using this

theorem stringOk_none (w : Nat) : stringOk w none := fun _ h => nomatch h

theorem wordTotal_nil : wordTotal [] = 0 := rfl

theorem wordTotal_one (a : Byte) : wordTotal [a] = a.toNat := by simp [wordTotal, byteAt]

theorem wordTotal_cons (a b : Byte) (B : List Byte) : wordTotal (a :: b :: B) = a.toNat + 256 * b.toNat + wordTotal B := by
  unfold wordTotal
  have h1 : (a :: b :: B).length / 2 = B.length / 2 + 1 := by simp only [List.length_cons]; omega
  have h2 : (a :: b :: B).length % 2 = B.length % 2 := by simp only [List.length_cons]; omega
  have h3 : ∀ j, byteAt (a :: b :: B) (j + 2) = byteAt B j := fun j => by simp [byteAt]
  rw [h1, h2, List.range_succ_eq_map, List.map_cons, List.sum_cons, List.map_map]
  have h4 : ((fun j => byteAt (a :: b :: B) (2 * j) + 256 * byteAt (a :: b :: B) (2 * j + 1)) ∘ Nat.succ)
      = fun j => byteAt B (2 * j) + 256 * byteAt B (2 * j + 1) := by
    funext j
    simp only [Function.comp, Nat.succ_eq_add_one]
    rw [show 2 * (j + 1) = 2 * j + 2 by omega, show 2 * j + 2 + 1 = (2 * j + 1) + 2 by omega, h3, h3]
  rw [h4]
  have h5 : byteAt (a :: b :: B) (2 * 0) + 256 * byteAt (a :: b :: B) (2 * 0 + 1) = a.toNat + 256 * b.toNat := rfl
  rw [h5]
  split
  · rename_i hodd
    have : (a :: b :: B).length - 1 = (B.length - 1) + 2 := by simp only [List.length_cons]; omega
    rw [this, h3]; omega
  · omega

/-- The running sum and the sum agree modulo 65535. -/
theorem wordSum_mod (B : List Byte) (sum : Nat) : wordSum B sum % 65535 = (sum + wordTotal B) % 65535 := by
  induction B, sum using wordSum.induct with
  | case1 sum lo hi rest ih => rw [wordSum, ih, wordTotal_cons]; omega
  | case2 sum last => rw [wordSum, wordTotal_one]
  | case3 sum => rw [wordSum, wordTotal_nil, Nat.add_zero]

/-- The checksum is never 65535 (R86). -/
theorem checksum_le (B : List Byte) : checksum B ≤ 65534 := by unfold checksum; omega

/-- The bank of an integer time, for any value. -/
theorem intTime_bank (v : Nat) (h : v < 4294967296) : IntTime v (decodeInt v).bank := by
  simp only [IntTime, decodeInt, Civil.bank, Nat.div_div_eq_div_mul]
  norm_num [BitVec.toNat_ofInt]
  omega

theorem hexTime_bank (B : List Byte) (o : Nat) : HexTime (byteAt B) o (decodeHex B o).bank := by
  have h := byteAt_lt B
  have a0 := h o; have a1 := h (o + 1); have a2 := h (o + 2); have a3 := h (o + 3); have a4 := h (o + 4); have a5 := h (o + 5)
  simp only [HexTime, decodeHex, Civil.bank, BitVec.toInt_ofInt]
  refine ⟨?_, ?_, ?_, ?_, ?_, ?_⟩ <;> apply Int.bmod_eq_of_le <;> omega

theorem hexTime_slice (o : Nat) (h : o + 6 ≤ s.ilen.toNat) : HexTime s.sliceByte o (decodeHex s.slice o).bank := by
  have := hexTime_bank s.slice o
  unfold HexTime at *
  rw [byteAt_slice s _ (by omega), byteAt_slice s _ (by omega), byteAt_slice s _ (by omega), byteAt_slice s _ (by omega), byteAt_slice s _ (by omega), byteAt_slice s _ (by omega)] at this
  exact this

theorem decodeHex_drop (B : List Byte) (d o : Nat) : decodeHex (B.drop d) o = decodeHex B (d + o) := by
  unfold decodeHex; simp only [byteAt_drop, Nat.add_assoc]

theorem encodeInt_civil (T : Timestamp) : encodeInt T.civil =
   ((T.year.toInt - 2000) * 12 + T.month.toInt - 1) * 2678400 + (T.day.toInt - 1) * 86400
          + T.hour.toInt * 3600 + T.minute.toInt * 60 + T.second.toInt := by
  simp only [encodeInt, Timestamp.civil]; ring

/-- The signed reading of a small register. -/
theorem toInt_of_toNat (w : Word) (h : w.toNat < 2147483648) : w.toInt = w.toNat := by
  rw [BitVec.toInt_eq_toNat_cond]; omega

end Sys2Proof.Machine
end

