-- ==== Sys2Proof/Laws/FrameCodec.lean ====
section
/-! SUPPORT. The laws of CSUM, ENCODE and DECODE: how each can end, and the bytes of a frame. -/

namespace Sys2Proof.Machine

variable {s t : State}

theorem execCsum_cases (h : exec .csum s = .next t) :
    (¬ s.SliceFits ∧ t = s.finish .bounds .clear)
      ∨ (s.SliceFits ∧ t = (s.setResult (BitVec.ofNat 32 (checksum s.slice))).finish .ok .clear) := by
  injection h with h
  subst h
  by_cases hf : s.sliceInBounds = true
  · exact .inr ⟨sliceInBounds_iff.1 hf, by simp [hf]⟩
  · exact .inl ⟨fun h => hf (sliceInBounds_iff.2 h), by simp [hf]⟩

theorem encodeTooLong_iff : s.encodeTooLong = true ↔ ¬ s.FrameFits := by
  unfold State.encodeTooLong State.FrameFits
  cases s.ctrl.stream <;> simp <;> omega

theorem execEncode_cases (h : exec .encode s = .next t) :
    (¬ s.SliceFits ∧ t = s.finish .bounds .clear)
      ∨ (s.SliceFits ∧ ¬ s.FrameFits ∧ t = s.finish .lengthOverflow .clear)
      ∨ (s.SliceFits ∧ s.FrameFits ∧ t = s.encoded) := by
  injection h with h
  subst h
  by_cases hf : s.sliceInBounds = true
  · by_cases hl : s.encodeTooLong = true
    · exact .inr (.inl ⟨sliceInBounds_iff.1 hf, encodeTooLong_iff.1 hl, by simp [hf, hl]⟩)
    · exact .inr (.inr ⟨sliceInBounds_iff.1 hf, not_not.1 fun h => hl (encodeTooLong_iff.2 h), by simp [hf, hl]⟩)
  · exact .inl ⟨fun h => hf (sliceInBounds_iff.2 h), by simp [hf]⟩

theorem execDecode_cases (h : exec .decode s = .next t) :
    (¬ s.SliceFits ∧ t = s.finish .bounds .clear)
      ∨ (s.SliceFits ∧ frameTooShort (hasEnvelope s.ctrl.stream s.slice) s.slice = true
          ∧ t = s.finish .malformedFrame { DecodeFlags.clear with envPresent := hasEnvelope s.ctrl.stream s.slice })
      ∨ (s.SliceFits ∧ frameTooShort (hasEnvelope s.ctrl.stream s.slice) s.slice = false ∧ s.ctrl.strict = true
          ∧ s.frameView.flags.lenMismatch = true
          ∧ t = (s.noteMismatch s.frameView.flags.csumMismatch).finish .malformedFrame s.frameView.flags)
      ∨ (s.SliceFits ∧ frameTooShort (hasEnvelope s.ctrl.stream s.slice) s.slice = false ∧ s.ctrl.strict = true
          ∧ s.frameView.flags.lenMismatch = false ∧ s.frameView.flags.csumMismatch = true
          ∧ t = (s.noteMismatch s.frameView.flags.csumMismatch).finish .checksumMismatch s.frameView.flags)
      ∨ (s.SliceFits ∧ frameTooShort (hasEnvelope s.ctrl.stream s.slice) s.slice = false
          ∧ (s.ctrl.strict = true → s.frameView.flags.lenMismatch = false ∧ s.frameView.flags.csumMismatch = false)
          ∧ t = ((s.noteMismatch s.frameView.flags.csumMismatch).commitDecode s.frameView).finish .ok s.frameView.flags) := by
  injection h with h
  subst h
  by_cases hf : s.sliceInBounds = true
  · have hF := sliceInBounds_iff.1 hf
    by_cases hs : frameTooShort (hasEnvelope s.ctrl.stream s.slice) s.slice = true
    · exact .inr (.inl ⟨hF, hs, by simp [hf, hs]⟩)
    · have hs' := Bool.eq_false_iff.2 hs
      by_cases h1 : (s.ctrl.strict && s.frameView.flags.lenMismatch) = true
      · obtain ⟨ha, hb⟩ := Bool.and_eq_true_iff.1 h1
        refine .inr (.inr (.inl ⟨hF, hs', ha, hb, ?_⟩))
        unfold State.frameView at *
        simp [hf, hs', ha, hb]
      · by_cases h2 : (s.ctrl.strict && s.frameView.flags.csumMismatch) = true
        · obtain ⟨ha, hc⟩ := Bool.and_eq_true_iff.1 h2
          have hb : s.frameView.flags.lenMismatch = false := by simpa [ha] using h1
          refine .inr (.inr (.inr (.inl ⟨hF, hs', ha, hb, hc, ?_⟩)))
          unfold State.frameView at *
          simp [hf, hs', ha, hb, hc]
        · refine .inr (.inr (.inr (.inr ⟨hF, hs', fun ha => ⟨by simpa [ha] using h1, by simpa [ha] using h2⟩, ?_⟩)))
          have h1' := Bool.eq_false_iff.2 h1
          have h2' := Bool.eq_false_iff.2 h2
          unfold State.frameView at *
          simp [hf, hs', h1', h2']
  · exact .inl ⟨fun h => hf (sliceInBounds_iff.2 h), by simp [hf]⟩

theorem headerBytes_length (h : Header) : (headerBytes h).length = 8 := rfl

theorem envelopeBytes_length (n : Nat) : (envelopeBytes n).length = 8 := rfl

/-- The two bytes of a u16. -/
theorem bytes16_u16 (v : Nat) (h : v < 65536) : byteAt (bytes16 v) 0 + 256 * byteAt (bytes16 v) 1 = v := by
  simp [bytes16, byteAt]; omega

theorem headerBytes_fields (h : Header) :
    le16 (headerBytes h) 0 = h.cmd.toNat ∧ le16 (headerBytes h) 2 = h.csum.toNat ∧ le16 (headerBytes h) 4 = h.sid.toNat
      ∧ le16 (headerBytes h) 6 = h.rid.toNat :=
  ⟨bytes16_u16 _ h.cmd.isLt, bytes16_u16 _ h.csum.isLt, bytes16_u16 _ h.sid.isLt, bytes16_u16 _ h.rid.isLt⟩

theorem encodeOutput_length (stream : Bool) (h : Header) (p : List Byte) :
    (encodeOutput stream h p).length = frameAt stream + 8 + p.length := by
  cases stream <;> simp [encodeOutput, frameAt, headerBytes_length, envelopeBytes_length] <;> omega

/-- The frame inside the output. -/
theorem byteAt_encodeOutput (stream : Bool) (h : Header) (p : List Byte) (k : Nat) :
    byteAt (encodeOutput stream h p) (frameAt stream + k)
      = byteAt (headerBytes { h with csum := BitVec.ofNat 16 (encodeChecksum h p) } ++ p) k := by
  cases stream
  · simp [encodeOutput, frameAt]
  · exact byteAt_append_right (envelopeBytes _) _ k

theorem byteAt_encodeOutput_payload (stream : Bool) (h : Header) (p : List Byte) (k : Nat) :
    byteAt (encodeOutput stream h p) (frameAt stream + 8 + k) = byteAt p k := by
  rw [Nat.add_assoc, byteAt_encodeOutput]; exact byteAt_append_right (headerBytes _) p k

theorem le16_encodeOutput (stream : Bool) (h : Header) (p : List Byte) :
    le16 (encodeOutput stream h p) (frameAt stream) = h.cmd.toNat
      ∧ le16 (encodeOutput stream h p) (frameAt stream + 2) = encodeChecksum h p
      ∧ le16 (encodeOutput stream h p) (frameAt stream + 4) = h.sid.toNat
      ∧ le16 (encodeOutput stream h p) (frameAt stream + 6) = h.rid.toNat := by
  have key : ∀ k, k < 7 → le16 (encodeOutput stream h p) (frameAt stream + k)
      = le16 (headerBytes { h with csum := BitVec.ofNat 16 (encodeChecksum h p) }) k := by
    intro k hk
    unfold le16
    rw [Nat.add_assoc, byteAt_encodeOutput, byteAt_encodeOutput, byteAt_append_left _ _ _ (by rw [headerBytes_length]; omega),
      byteAt_append_left _ _ _ (by rw [headerBytes_length]; omega)]
  obtain ⟨h0, h2, h4, h6⟩ := headerBytes_fields { h with csum := BitVec.ofNat 16 (encodeChecksum h p) }
  refine ⟨(key 0 (by omega)).trans h0, (key 2 (by omega)).trans (h2.trans ?_), (key 4 (by omega)).trans h4,
    (key 6 (by omega)).trans h6⟩
  have : encodeChecksum h p ≤ 65534 := checksum_le _
  simp only [BitVec.toNat_ofNat]; omega

theorem encodeOutput_envelope (h : Header) (p : List Byte) :
    byteAt (encodeOutput true h p) 0 = 0x50 ∧ byteAt (encodeOutput true h p) 1 = 0x50 ∧ byteAt (encodeOutput true h p) 2 = 0x82
      ∧ byteAt (encodeOutput true h p) 3 = 0x7D ∧ byteAt (encodeOutput true h p) 6 = 0 ∧ byteAt (encodeOutput true h p) 7 = 0
      ∧ (8 + p.length < 65536 → le16 (encodeOutput true h p) 4 = 8 + p.length) :=
  ⟨rfl, rfl, rfl, rfl, rfl, rfl, fun hn => bytes16_u16 _ hn⟩

theorem drop_encodeOutput (stream : Bool) (h : Header) (p : List Byte) :
    (encodeOutput stream h p).drop (frameAt stream) = headerBytes { h with csum := BitVec.ofNat 16 (encodeChecksum h p) } ++ p := by
  cases stream <;> rfl

theorem zeroChecksumField_header (h : Header) (c : Half) (p : List Byte) :
    zeroChecksumField (headerBytes { h with csum := c } ++ p) = headerBytes { h with csum := 0 } ++ p := by
  simp [zeroChecksumField, headerBytes, bytes16]

theorem encodeChecksum_eq (s : State) : encodeChecksum s.hdr s.slice = s.sentChecksum := by
  unfold encodeChecksum State.sentChecksum
  congr 2
  simp only [headerBytes, bytes16, List.map_cons, List.map_nil, List.cons_append, List.nil_append]
  have : ∀ h : Half, BitVec.ofNat 8 (h.toNat % 256) = BitVec.ofNat 8 h.toNat := fun h => BitVec.eq_of_toNat_eq (by simp)
  simp [this]

theorem outByte_writeBytes (s : State) (bs : List Byte) (k : Nat) :
    ({ s with obuf := writeBytes s.obuf 0 bs }).outByte k = if k < bs.length then byteAt bs k else s.outByte k := by
  unfold State.outByte
  rw [obufByte_writeBytes]
  simp [byteAt]; split <;> rfl

theorem encoded_outByte (s : State) (k : Nat) :
    s.encoded.outByte k = if k < frameAt s.ctrl.stream + 8 + s.ilen.toNat then byteAt (encodeOutput s.ctrl.stream s.hdr s.slice) k else s.outByte k := by
  have := outByte_writeBytes s (encodeOutput s.ctrl.stream s.hdr s.slice) k
  rw [encodeOutput_length, slice_length] at this
  exact this

theorem hasEnvelope_iff : hasEnvelope s.ctrl.stream s.slice = true ↔ s.EnvFound := by
  unfold hasEnvelope State.EnvFound
  rw [Bool.and_eq_true, Bool.and_eq_true, decide_eq_true_iff, slice_length, beq_iff_eq, and_assoc]
  refine and_congr_right fun _ => and_congr_right fun h => ?_
  rw [← byteAt_slice s 0 (by omega), ← byteAt_slice s 1 (by omega), ← byteAt_slice s 2 (by omega), ← byteAt_slice s 3 (by omega)]
  have hl : 4 ≤ s.slice.length := by rw [slice_length]; exact h
  generalize s.slice = S at hl
  match S, hl with
  | a :: b :: c :: d :: rest, _ =>
    simp [magic, byteAt, ← BitVec.toNat_inj]

theorem hasEnvelope_eq (env : Bool) (h : env = true ↔ s.EnvFound) : hasEnvelope s.ctrl.stream s.slice = env :=
  Bool.eq_iff_iff.2 (hasEnvelope_iff.trans h.symm)

theorem frameTooShort_iff (env : Bool) : frameTooShort env s.slice = true ↔ s.ilen.toNat < frameAt env + 8 := by
  unfold frameTooShort; rw [decide_eq_true_iff, slice_length]; cases env <;> rfl

theorem viewFrame_frame (env : Bool) (S : List Byte) : (if env then S.drop 8 else S) = S.drop (frameAt env) := by
  cases env <;> simp [frameAt]

theorem le16_frame (env : Bool) (k : Nat) (h : frameAt env + k + 1 < s.ilen.toNat) :
    le16 (s.slice.drop (frameAt env)) k = u16At s.sliceByte (frameAt env + k) := by
  unfold le16 u16At
  rw [byteAt_drop, byteAt_drop, byteAt_slice s _ (by omega), byteAt_slice s _ (by omega)]; rfl

theorem receivedChecksum_eq (env : Bool) (h : frameAt env + 8 ≤ s.ilen.toNat) :
    checksum (zeroChecksumField (s.slice.drop (frameAt env))) = s.receivedChecksum env := by
  unfold State.receivedChecksum
  congr 1
  apply List.ext_getElem?
  intro k
  have hl : (s.slice.drop (frameAt env)).length = s.ilen.toNat - frameAt env := by simp
  have hg : ∀ j, j < s.ilen.toNat - frameAt env → (s.slice.drop (frameAt env))[j]? = some (s.ibufByte (s.ioff.toNat + (frameAt env + j))) := by
    intro j hj
    rw [List.getElem?_drop, State.slice, List.getElem?_map, List.getElem?_range (by omega)]; rfl
  have hg' : ∀ j, s.ilen.toNat - frameAt env ≤ j → (s.slice.drop (frameAt env))[j]? = none := fun j hj => by
    rw [List.getElem?_eq_none_iff, hl]; exact hj
  generalize s.slice.drop (frameAt env) = F at *
  match F, hl with
  | [], hl => simp at hl; omega
  | [_], hl => simp at hl; omega
  | [_, _], hl => simp at hl; omega
  | [_, _, _], hl => simp at hl; omega
  | a :: b :: c :: d :: rest, hl =>
    simp only [zeroChecksumField, List.take, List.drop, List.cons_append, List.nil_append]
    by_cases hk : k < s.ilen.toNat - frameAt env
    · rw [List.getElem?_map, List.getElem?_range hk, Option.map_some]
      have := hg k hk
      rcases k with _ | _ | _ | _ | k
      · simpa using this
      · simpa using this
      · simp
      · simp
      · rw [if_neg (by omega)]; simpa using this
    · have hk' := Nat.le_of_not_lt hk
      rw [List.getElem?_eq_none_iff.2 (by simp only [List.length_cons] at hl ⊢; omega), eq_comm, List.getElem?_eq_none_iff]
      simpa using hk'

theorem viewFrame_flags (env : Bool) (h : frameAt env + 8 ≤ s.ilen.toNat) : (viewFrame env s.slice).flags = s.frameFlags env := by
  unfold viewFrame State.frameFlags
  simp only [viewFrame_frame]
  rw [receivedChecksum_eq env h, le16_frame env 2 (by omega)]
  cases env
  · rfl
  · simp only [frameAt, if_true] at h
    have e4 : le16 s.slice 4 = u16At s.sliceByte 4 := by
      unfold le16 u16At; rw [byteAt_slice s _ (by omega), byteAt_slice s _ (by omega)]
    rw [e4, slice_length, byteAt_slice s 6 (by omega), byteAt_slice s 7 (by omega)]
    simp

theorem viewFrame_payload (env : Bool) : (viewFrame env s.slice).payload = s.slice.drop (frameAt env + 8) := by
  unfold viewFrame; simp only [viewFrame_frame, List.drop_drop]

theorem viewFrame_fields (env : Bool) (h : frameAt env + 8 ≤ s.ilen.toNat) :
    (viewFrame env s.slice).hdr.cmd.toNat = u16At s.sliceByte (frameAt env)
      ∧ (viewFrame env s.slice).hdr.csum.toNat = u16At s.sliceByte (frameAt env + 2)
      ∧ (viewFrame env s.slice).hdr.sid.toNat = u16At s.sliceByte (frameAt env + 4)
      ∧ (viewFrame env s.slice).hdr.rid.toNat = u16At s.sliceByte (frameAt env + 6)
      ∧ (viewFrame env s.slice).envLen.toNat = (if env then u16At s.sliceByte 4 else 0)
      ∧ (viewFrame env s.slice).computed.toNat = s.receivedChecksum env := by
  unfold viewFrame
  simp only [viewFrame_frame, BitVec.toNat_ofNat]
  rw [receivedChecksum_eq env h, le16_frame env 2 (by omega), le16_frame env 0 (by omega), le16_frame env 4 (by omega), le16_frame env 6 (by omega)]
  have hr : s.receivedChecksum env ≤ 65534 := checksum_le _
  have M : ∀ k, u16At s.sliceByte k % 2 ^ 16 = u16At s.sliceByte k := fun k => Nat.mod_eq_of_lt (u16At_lt s k)
  refine ⟨M _, M _, M _, M _, ?_, Nat.mod_eq_of_lt (by omega)⟩
  cases env
  · rfl
  · simp only [frameAt, if_true] at h
    simp only [if_true]
    have e4 : le16 s.slice 4 = u16At s.sliceByte 4 := by
      unfold le16 u16At; rw [byteAt_slice s _ (by omega), byteAt_slice s _ (by omega)]
    rw [e4]; exact M _

end Sys2Proof.Machine
end

