-- ==== Sys2Proof/Laws/Exec.lean ====
section
/-! SUPPORT. How each operation can end: the case lemmas of the parser and the timestamps, and of every operation at once. -/

namespace Sys2Proof.Machine

variable {s t : State}

theorem commitParse_none (s : State) (p : Parsed) (h : p.time = none) :
    s.commitParse p = { s with recd := { p.recd with hasTime := false } } := by
  unfold State.commitParse; rw [h]; rfl

theorem commitParse_some (s : State) (p : Parsed) (c : Civil) (m : MonthConv) (h : p.time = some (c, m)) :
    s.commitParse p = { s with recd := { p.recd with hasTime := true }, ts := c.bank, tsConv := m } := by
  unfold State.commitParse; rw [h]; rfl

theorem parse_cases (w : Nat) (l : List Byte → Parsed) :
    (¬ s.SliceFits ∧ s.parse w l = s.finish .bounds .clear)
      ∨ (s.SliceFits ∧ s.ilen.toNat < w ∧ s.parse w l = s.finish .decodeError .clear)
      ∨ (s.SliceFits ∧ w ≤ s.ilen.toNat ∧ s.parse w l = (s.commitParse (l s.slice)).finish .ok .clear) := by
  unfold State.parse
  by_cases hf : s.sliceInBounds = true
  · by_cases hl : s.ilen.toNat < w
    · exact .inr (.inl ⟨sliceInBounds_iff.1 hf, hl, by simp [hf, hl]⟩)
    · exact .inr (.inr ⟨sliceInBounds_iff.1 hf, by omega, by simp [hf, hl]⟩)
  · exact .inl ⟨fun h => hf (sliceInBounds_iff.2 h), by simp [hf]⟩

theorem validWord_bits (r : Record) :
    r.validWord.getLsbD 0 = r.uid.isSome ∧ r.validWord.getLsbD 1 = r.role.isSome ∧ r.validWord.getLsbD 2 = r.password.isSome
      ∧ r.validWord.getLsbD 3 = r.name.isSome ∧ r.validWord.getLsbD 4 = r.card.isSome ∧ r.validWord.getLsbD 5 = r.useridStr.isSome
      ∧ r.validWord.getLsbD 6 = r.useridNum.isSome ∧ r.validWord.getLsbD 7 = r.userSn.isSome ∧ r.validWord.getLsbD 8 = r.hasTime
      ∧ r.validWord.getLsbD 9 = r.devUsers.isSome ∧ r.validWord.getLsbD 10 = r.devLogs.isSome ∧ r.validWord.getLsbD 11 = r.devCap.isSome := by
  have hb : ∀ (n i : Nat), n < 12 → i < 12 → ∀ b : Bool, (bitAt n b).getLsbD i = (decide (n = i) && b) := by
    have : ∀ n < 12, ∀ i < 12, ∀ b : Bool, (bitAt n b).getLsbD i = (decide (n = i) && b) := by decide
    exact fun n i h1 h2 b => this n h1 i h2 b
  unfold Record.validWord
  simp only [BitVec.getLsbD_or]
  simp (disch := decide) only [hb]
  simp

theorem execTsEncodeInt_cases (h : exec .tsEncodeInt s = .next t) :
    ((encodeInt s.ts.civil < 0 ∨ 2 ^ 32 ≤ encodeInt s.ts.civil) ∧ t = s.finish .range .clear)
      ∨ (0 ≤ encodeInt s.ts.civil ∧ encodeInt s.ts.civil < 2 ^ 32
          ∧ t = (s.setResult (BitVec.ofNat 32 (encodeInt s.ts.civil).toNat)).finish .ok .clear) := by
  injection h with h
  subst h
  simp only
  by_cases h1 : encodeInt s.ts.civil < 0
  · exact .inl ⟨.inl h1, by simp [h1]⟩
  · by_cases h2 : 2 ^ 32 ≤ encodeInt s.ts.civil
    · exact .inl ⟨.inr h2, by rw [if_pos (by simp; omega)]; rfl⟩
    · exact .inr ⟨by omega, by omega, by rw [if_neg (by simp; omega)]; rfl⟩

theorem execTsDecodeHex_cases (h : exec .tsDecodeHex s = .next t) :
    (¬ s.SliceFits ∧ t = s.finish .bounds .clear)
      ∨ (s.SliceFits ∧ s.ilen.toNat < 6 ∧ t = s.finish .decodeError .clear)
      ∨ (s.SliceFits ∧ 6 ≤ s.ilen.toNat ∧ t = (s.setTime (decodeHex s.slice 0) .zeroIndexed).finish .ok .clear) := by
  injection h with h
  subst h
  by_cases hf : s.sliceInBounds = true
  · by_cases hl : s.ilen.toNat < 6
    · exact .inr (.inl ⟨sliceInBounds_iff.1 hf, hl, by simp [hf, hl]⟩)
    · exact .inr (.inr ⟨sliceInBounds_iff.1 hf, by omega, by simp [hf, hl]⟩)
  · exact .inl ⟨fun h => hf (sliceInBounds_iff.2 h), by simp [hf]⟩

/-- Every operation answers a next state. -/
theorem exec_answers (i : Instr) (s : State) : ∃ t, exec i s = .next t := by cases i <;> exact ⟨_, rfl⟩

/-- An operation ends in an error that writes only the status, or in success: the outcomes of R124. -/
theorem exec_cases (i : Instr) (h : exec i s = .next t) :
    (∃ e fl b, t = (s.noteMismatch b).finish e fl ∧ e ≠ .ok ∧ (i ≠ .decode → fl = .clear ∧ b = false))
      ∨ (∃ v, (i = .csum ∨ i = .tsEncodeInt) ∧ t = (s.setResult v).finish .ok .clear)
      ∨ (i = .encode ∧ s.SliceFits ∧ s.FrameFits ∧ t = s.encoded)
      ∨ (∃ v fl b, i = .decode ∧ s.SliceFits ∧ v.payload.length ≤ s.ilen.toNat ∧ t = ((s.noteMismatch b).commitDecode v).finish .ok fl)
      ∨ (∃ c m, (i = .tsDecodeInt ∨ i = .tsDecodeHex) ∧ t = (s.setTime c m).finish .ok .clear)
      ∨ (∃ p, t = (s.commitParse p).finish .ok .clear ∧
          ((i = .parseUserS ∧ p = layoutUserS s.slice) ∨ (i = .parseUserL ∧ p = layoutUserL s.slice)
            ∨ (i = .parseAttS ∧ p = layoutAttS s.slice) ∨ (i = .parseAttL ∧ p = layoutAttL s.slice)
            ∨ (i = .parseRtS ∧ p = layoutRtS s.slice) ∨ (i = .parseRtL ∧ p = layoutRtL s.slice)
            ∨ (i = .parseDevinfo ∧ p = layoutDevinfo s.cfg s.slice))) := by
  have hnm : s.noteMismatch false = s := by unfold State.noteMismatch; simp
  have fail : ∀ e : Err, e ≠ .ok → t = s.finish e .clear → ∃ e fl b, t = (s.noteMismatch b).finish e fl ∧ e ≠ .ok ∧ (i ≠ .decode → fl = DecodeFlags.clear ∧ b = false) :=
    fun e he ht => ⟨e, .clear, false, by rw [hnm]; exact ht, he, fun _ => ⟨rfl, rfl⟩⟩
  have prs : ∀ w l, exec i s = .next (s.parse w l) →
      (∃ e fl b, t = (s.noteMismatch b).finish e fl ∧ e ≠ .ok ∧ (i ≠ .decode → fl = DecodeFlags.clear ∧ b = false))
      ∨ t = (s.commitParse (l s.slice)).finish .ok .clear := by
    intro w l he
    rw [h] at he; injection he with he
    rcases parse_cases (s := s) w l with ⟨_, hp⟩ | ⟨_, _, hp⟩ | ⟨_, _, hp⟩ <;> rw [hp] at he
    · exact .inl (fail _ (by decide) he)
    · exact .inl (fail _ (by decide) he)
    · exact .inr he
  cases i
  case csum =>
    rcases execCsum_cases h with ⟨_, ht⟩ | ⟨_, ht⟩
    · exact .inl (fail _ (by decide) ht)
    · exact .inr (.inl ⟨_, .inl rfl, ht⟩)
  case encode =>
    rcases execEncode_cases h with ⟨_, ht⟩ | ⟨_, _, ht⟩ | ⟨h1, h2, ht⟩
    · exact .inl (fail _ (by decide) ht)
    · exact .inl (fail _ (by decide) ht)
    · exact .inr (.inr (.inl ⟨rfl, h1, h2, ht⟩))
  case decode =>
    rcases execDecode_cases h with ⟨_, ht⟩ | ⟨_, _, ht⟩ | ⟨_, _, _, _, ht⟩ | ⟨_, _, _, _, _, ht⟩ | ⟨h1, _, _, ht⟩
    · exact .inl (fail _ (by decide) ht)
    · exact .inl ⟨_, _, false, by rw [hnm]; exact ht, by decide, fun h => absurd rfl h⟩
    · exact .inl ⟨_, _, _, ht, by decide, fun h => absurd rfl h⟩
    · exact .inl ⟨_, _, _, ht, by decide, fun h => absurd rfl h⟩
    · refine .inr (.inr (.inr (.inl ⟨_, _, _, rfl, h1, ?_, ht⟩)))
      unfold State.frameView viewFrame State.slice
      simp only
      split <;> simp
  case tsDecodeInt => injection h with h; exact .inr (.inr (.inr (.inr (.inl ⟨_, _, .inl rfl, h.symm⟩))))
  case tsEncodeInt =>
    rcases execTsEncodeInt_cases h with ⟨_, ht⟩ | ⟨_, _, ht⟩
    · exact .inl (fail _ (by decide) ht)
    · exact .inr (.inl ⟨_, .inr rfl, ht⟩)
  case tsDecodeHex =>
    rcases execTsDecodeHex_cases h with ⟨_, ht⟩ | ⟨_, _, ht⟩ | ⟨_, _, ht⟩
    · exact .inl (fail _ (by decide) ht)
    · exact .inl (fail _ (by decide) ht)
    · exact .inr (.inr (.inr (.inr (.inl ⟨_, _, .inr rfl, ht⟩))))
  all_goals
    rcases prs _ _ rfl with hl | hr
    · exact .inl hl
    · exact .inr (.inr (.inr (.inr (.inr ⟨_, hr, by simp⟩))))

end Sys2Proof.Machine
end

