-- ==== Sys2Proof/Laws/PerInstr.lean ====
section
/-! SUPPORT. The family OpWord, instruction by instruction: an operation is well formed, its op code decodes to it, and that code is one of 1 to 0x22 (R64, R65). -/

namespace Sys2Proof.Laws.OpWord

/-- What R64 and R65 say of one operation as syntax. -/
def Statement (i : Instr) : Prop :=
  i.wf = true ∧ Sys2Proof.decode (Sys2Proof.encode i) = .ok i ∧ 1 ≤ (Sys2Proof.encode i).toNat ∧ (Sys2Proof.encode i).toNat ≤ 0x22

theorem csum : Statement .csum := ⟨rfl, rfl, by decide, by decide⟩
theorem encode : Statement .encode := ⟨rfl, rfl, by decide, by decide⟩
theorem decode : Statement .decode := ⟨rfl, rfl, by decide, by decide⟩
theorem parseUserS : Statement .parseUserS := ⟨rfl, rfl, by decide, by decide⟩
theorem parseUserL : Statement .parseUserL := ⟨rfl, rfl, by decide, by decide⟩
theorem parseAttS : Statement .parseAttS := ⟨rfl, rfl, by decide, by decide⟩
theorem parseAttL : Statement .parseAttL := ⟨rfl, rfl, by decide, by decide⟩
theorem parseRtS : Statement .parseRtS := ⟨rfl, rfl, by decide, by decide⟩
theorem parseRtL : Statement .parseRtL := ⟨rfl, rfl, by decide, by decide⟩
theorem parseDevinfo : Statement .parseDevinfo := ⟨rfl, rfl, by decide, by decide⟩
theorem tsDecodeInt : Statement .tsDecodeInt := ⟨rfl, rfl, by decide, by decide⟩
theorem tsEncodeInt : Statement .tsEncodeInt := ⟨rfl, rfl, by decide, by decide⟩
theorem tsDecodeHex : Statement .tsDecodeHex := ⟨rfl, rfl, by decide, by decide⟩

end Sys2Proof.Laws.OpWord
end

