-- ==== Sys2Proof/Laws/Step.lean ====
section
/-! SUPPORT. The laws of turns and host turns: what a turn can do and what can stop it. -/

namespace Sys2Proof.Machine

variable {s t : State}

/-- The engine's step or the idle step, the reset, or a host turn. -/
theorem nextTurn_fields (s : State) : ∃ d, s.nextTurn.2 = { s with turns := s.turns.tail, delay := d } := by
  unfold State.nextTurn
  cases h : s.turns with
  | nil =>
    simp only
    split
    · exact ⟨s.delay, by rw [List.tail_nil, ← h]⟩
    · split
      · exact ⟨s.delay, by rw [List.tail_nil, ← h]⟩
      · exact ⟨s.delay - 1, by rw [List.tail_nil, ← h]⟩
  | cons a rest => exact ⟨s.delay, rfl⟩

/-- A step in which the host moves is its turn at the state with the turn used up. -/
theorem step_host (h : s.nextTurn = (.host, t)) : step s = t.hostTurn := by
  unfold step; rw [h]; rfl

/-- What a host turn can do. -/
theorem hostTurn_cases (h : s.hostTurn = .next t) :
    t = s ∨ (∃ op u v, s.bus op = .ok (u, v) ∧ ∃ st : Stmt, t = u.withHost (s.host.after st v))
      ∨ (∃ p, t = s.withHost { s.host with pos := p, sub := 0 })
      ∨ ∃ st : Stmt, t = s.withHost { s.host.past with vars := st.storeNone s.host.vars } := by
  unfold State.hostTurn at h
  have P : ∀ st : Stmt, s.perform st = .next t → (∃ op u v, s.bus op = .ok (u, v) ∧ ∃ st : Stmt, t = u.withHost (s.host.after st v)) ∨ ∃ st : Stmt, t = s.withHost { s.host.past with vars := st.storeNone s.host.vars } := by
    intro st h
    unfold State.perform at h
    split at h
    · injection h with h; exact .inr ⟨st, h.symm⟩
    · rename_i op _
      split at h
      · cases h
      · rename_i u v hb; injection h with h; exact .inl ⟨op, u, v, hb, st, h.symm⟩
  split at h
  · injection h with h; exact .inl h.symm
  · unfold State.branch at h
    split at h
    · injection h with h; exact .inr (.inr (.inl ⟨_, h.symm⟩))
    · split at h
      · injection h with h; exact .inr (.inr (.inl ⟨_, h.symm⟩))
      · cases h
  · rcases P _ h with h | h
    · exact .inr (.inl h)
    · exact .inr (.inr (.inr h))

theorem hostTurn_fault {f : Fault} (h : s.hostTurn = .fault f) : ∃ op, s.bus op = .error f := by
  unfold State.hostTurn at h
  split at h
  · cases h
  · unfold State.branch at h
    split at h
    · cases h
    · split at h <;> cases h
  · unfold State.perform at h
    split at h
    · cases h
    · split at h
      · rename_i hb; injection h with h; subst h; exact ⟨_, hb⟩
      · cases h

/-- What stops a host turn. -/
theorem hostTurn_refused {r : Refusal} (h : s.hostTurn = .refused r) : ∃ l, r = .undefinedLabel l := by
  unfold State.hostTurn at h
  split at h
  · cases h
  · unfold State.branch at h
    split at h
    · cases h
    · split at h
      · cases h
      · injection h with h; exact ⟨_, h.symm⟩
  · unfold State.perform at h
    split at h
    · cases h
    · split at h <;> cases h

/-- A host turn while an operation is pending. -/
theorem hostTurn_busy (hb : s.status.busy = true) (h : s.hostTurn = .next t) : t = { s with host := t.host } := by
  rcases hostTurn_cases h with rfl | ⟨op, u, v, hu, st, rfl⟩ | ⟨p, rfl⟩ | ⟨st, rfl⟩
  · rfl
  · rw [bus_busy hb hu]; rfl
  · rfl
  · rfl

theorem rising_after (h : HostAgent) (st : Stmt) (v : Word) (hr : Rising h.vars) : Rising (h.after st v).vars := by
  unfold HostAgent.after
  simp only
  split
  · exact rising_store _ _ _ _ hr
  · exact rising_store _ _ _ _ hr

end Sys2Proof.Machine
end

