-- ==== Sys2Proof/Machine/Protocol.lean ====
section
/-! DEFINITION. The protocol constants of R78, for hosts. No operation reads one: ENCODE takes any command and DECODE returns any (log 19). -/

namespace Sys2Proof.Machine

/-- The command ids the source lists (R78). -/
inductive CommandId where
  | connect | exit | enableDevice | disableDevice | restart | getVersion | prepareData | data | freeData | dataWrrq | dataRdy
  | attlogRrq | userWrq | regEvent
  deriving DecidableEq, Repr

/-- The value of a command id, as it stands in `HDR_CMD` (R78). -/
def CommandId.value : CommandId → Half
  | .connect => 1000
  | .exit => 1001
  | .enableDevice => 1002
  | .disableDevice => 1003
  | .restart => 1004
  | .getVersion => 1100
  | .prepareData => 1500
  | .data => 1501
  | .freeData => 1502
  | .dataWrrq => 1503
  | .dataRdy => 1504
  | .attlogRrq => 13
  | .userWrq => 8
  | .regEvent => 500

/-- The event flags the source lists (R78). -/
inductive EventFlag where
  | attlog | finger | enrollUser | enrollFinger | button | unlock | verify | fpftr | alarm
  deriving DecidableEq, Repr

/-- The value of an event flag, one bit of a mask; no flag has the value 64 (R78). -/
def EventFlag.value : EventFlag → Word
  | .attlog => 1
  | .finger => 2
  | .enrollUser => 4
  | .enrollFinger => 8
  | .button => 16
  | .unlock => 32
  | .verify => 128
  | .fpftr => 256
  | .alarm => 512

end Sys2Proof.Machine
end

