-- ==== Sys2Proof/Tests/Slice0.lean ====
section
/-! SUPPORT. The model's own tests: ill-formed terms, op words written out from R65, the vectors of spec/95_test_vectors.md, and a witness for the hypotheses of every statement. -/

namespace Sys2Proof.Tests

open Sys2Proof.Machine

/-! ### Helpers -/

/-- Parameters of the vectors: `BUF_BYTES` 65536 and the DeviceInfo parameters of P-DI-1. -/
def cfg0 : Params := { base := 0x40000, bufBytes := 65536, devWidth := 12, devOffUsers := 0, devOffLogs := 4, devOffCap := 8 }

/-- A fresh block with those parameters. -/
def fresh : State := { State.reset with cfg := cfg0 }

/-- A fresh block with the bytes at `IBUF[off ..]` and the slice on them. -/
def given (off : Nat) (bs : List Byte) : State :=
  { fresh with ibuf := writeBytes [] off bs, ioff := BitVec.ofNat 32 off, ilen := BitVec.ofNat 32 bs.length }

/-- A fresh block with the slice `IBUF[off .. off+len]`, no byte of it written. -/
def sliced (off len : Word) : State := { fresh with ioff := off, ilen := len }

/-- A fresh block with `CTRL` written. -/
def withCtrl (stream strict : Bool) (s : State) : State := { s with ctrl := { stream := stream, strict := strict } }

/-- The state an operation answers. -/
def after (i : Instr) (s : State) : State :=
  match exec i s with
  | .next t => t
  | .fault _ => s
  | .refused _ => s

/-- A fresh block with `w` pending, the engine next. -/
def waiting (w : Word) : State := fresh.withPending w

/-- A fresh block whose host stands before `prog`. -/
def hosted (prog : List Stmt) : State := { fresh with host := { fresh.host with prog := prog } }

/-- The same with `CSUM` pending and the next turn the host's. -/
def hostedBusy (prog : List Stmt) : State := { (hosted prog).startOp 0x01 with turns := [.host] }

/-- Frame f2, the output of EN-2. -/
def f2 : List Byte := [0x50, 0x50, 0x82, 0x7d, 0x08, 0x00, 0x00, 0x00, 0xe8, 0x03, 0x16, 0xfc, 0x00, 0x00, 0x00, 0x00]

theorem after_eq (i : Instr) (s : State) : exec i s = .next (after i s) := by
  obtain ⟨t, ht⟩ := exec_answers i s
  unfold after; rw [ht]

/-! ### Ill-formed terms (WellFormed.lean) -/

theorem test_wf_name_unaligned : Reg.wf (.recName 2) = false := by decide
theorem test_wf_password_outside : Reg.wf (.recPassword 8) = false := by decide
theorem test_wf_userid_outside : Reg.wf (.recUserid 12) = false := by decide
theorem test_wf_wrb_empty : programWf [.wrb 0 []] = false := by decide
theorem test_wf_bnz_no_label : programWf [.label 1, .bnz 0 1 2] = false := by decide
theorem test_wf_label_twice : programWf [.label 1, .label 1] = false := by decide
theorem test_wf_register_in_program : programWf [.rd32 (.recName 24) 0] = false := by decide
theorem test_wf_good_program : programWf (.wrb 0 [0x01] :: Pseudo.run .csum 9 1) = true := by decide
theorem test_wf_params : Params.legal { cfg0 with devOffCap := 9 } = false ∧ Params.legal { cfg0 with base := 4 } = false
    ∧ Params.legal { cfg0 with bufBytes := 65537 } = false ∧ Params.legal { cfg0 with bufBytes := 15 } = false := by decide

/-! ### Op words, byte by byte (R65) -/

theorem test_word_csum : decodeBytes [0x01, 0x00, 0x00, 0x00, 0xAA] = .ok (.csum, [0xAA]) ∧ decodeTableWord 32 0x00000001 = some .csum := ⟨rfl, rfl⟩
theorem test_word_encode : decodeBytes [0x02, 0x00, 0x00, 0x00, 0xAA] = .ok (.encode, [0xAA]) ∧ decodeTableWord 32 0x00000002 = some .encode := ⟨rfl, rfl⟩
theorem test_word_decode : decodeBytes [0x03, 0x00, 0x00, 0x00, 0xAA] = .ok (.decode, [0xAA]) ∧ decodeTableWord 32 0x00000003 = some .decode := ⟨rfl, rfl⟩
theorem test_word_parseUserS : decodeBytes [0x10, 0x00, 0x00, 0x00, 0xAA] = .ok (.parseUserS, [0xAA]) ∧ decodeTableWord 32 0x00000010 = some .parseUserS := ⟨rfl, rfl⟩
theorem test_word_parseUserL : decodeBytes [0x11, 0x00, 0x00, 0x00, 0xAA] = .ok (.parseUserL, [0xAA]) ∧ decodeTableWord 32 0x00000011 = some .parseUserL := ⟨rfl, rfl⟩
theorem test_word_parseAttS : decodeBytes [0x12, 0x00, 0x00, 0x00, 0xAA] = .ok (.parseAttS, [0xAA]) ∧ decodeTableWord 32 0x00000012 = some .parseAttS := ⟨rfl, rfl⟩
theorem test_word_parseAttL : decodeBytes [0x13, 0x00, 0x00, 0x00, 0xAA] = .ok (.parseAttL, [0xAA]) ∧ decodeTableWord 32 0x00000013 = some .parseAttL := ⟨rfl, rfl⟩
theorem test_word_parseRtS : decodeBytes [0x14, 0x00, 0x00, 0x00, 0xAA] = .ok (.parseRtS, [0xAA]) ∧ decodeTableWord 32 0x00000014 = some .parseRtS := ⟨rfl, rfl⟩
theorem test_word_parseRtL : decodeBytes [0x15, 0x00, 0x00, 0x00, 0xAA] = .ok (.parseRtL, [0xAA]) ∧ decodeTableWord 32 0x00000015 = some .parseRtL := ⟨rfl, rfl⟩
theorem test_word_parseDevinfo : decodeBytes [0x16, 0x00, 0x00, 0x00, 0xAA] = .ok (.parseDevinfo, [0xAA]) ∧ decodeTableWord 32 0x00000016 = some .parseDevinfo := ⟨rfl, rfl⟩
theorem test_word_tsDecodeInt : decodeBytes [0x20, 0x00, 0x00, 0x00, 0xAA] = .ok (.tsDecodeInt, [0xAA]) ∧ decodeTableWord 32 0x00000020 = some .tsDecodeInt := ⟨rfl, rfl⟩
theorem test_word_tsEncodeInt : decodeBytes [0x21, 0x00, 0x00, 0x00, 0xAA] = .ok (.tsEncodeInt, [0xAA]) ∧ decodeTableWord 32 0x00000021 = some .tsEncodeInt := ⟨rfl, rfl⟩
theorem test_word_tsDecodeHex : decodeBytes [0x22, 0x00, 0x00, 0x00, 0xAA] = .ok (.tsDecodeHex, [0xAA]) ∧ decodeTableWord 32 0x00000022 = some .tsDecodeHex := ⟨rfl, rfl⟩

/-- IL-1 to IL-5: values that are no op code, and words with a bit above the code. -/
theorem test_illegal_words : decode 0x00000000 = .error .illegalOp ∧ decode 0x00000004 = .error .illegalOp
    ∧ decode 0x00000017 = .error .illegalOp ∧ decode 0x00000023 = .error .illegalOp ∧ decode 0xFFFFFFFF = .error .illegalOp
    ∧ decode 0x01000001 = .error .illegalOp ∧ decode 0x80000020 = .error .illegalOp := ⟨rfl, rfl, rfl, rfl, rfl, rfl, rfl⟩

theorem test_short_word : decodeBytes [0x01, 0x00, 0x00] = .error .truncated := rfl

/-- IL-1: an illegal word writes only `STATUS`. -/
theorem test_step_illegal : step (waiting 0) = .next { fresh with status := { fresh.status with err := .illegalOp, done := true }, delay := Config.latency 0, started := 1 } := rfl

/-- The next step runs the word placed. -/
theorem test_fetch_word : (match step (State.reset.withFetchWord 32 0x21) with | .next t => t.status.err | .fault _ => .ok | .refused _ => .ok) = .range := rfl

/-! ### CSUM: CS-9, CS-14; CSB-2 -/

theorem test_csum_wrap : (after .csum (given 0 [0xfe, 0xff, 0xff])).result = 0xFF00 ∧ (after .csum (given 1 [0x34, 0x12, 0x01])).result = 0xEDC9 := by decide
theorem test_csum_bounds : (after .csum (sliced 0xFFFFFFFF 2)).readReg .status = 0x105 ∧ (after .csum (sliced 65536 0)).result = 0xFFFE := by decide

/-! ### ENCODE: EN-8; EN-L1, EN-L7 -/

/-- The state before EN-8. -/
def en8 : State := withCtrl true false { given 0 [0xff, 0xff, 0x00, 0x00] with hdr := { cmd := 500, csum := 0, sid := 0x55AA, rid := 2 } }

/-- The output of EN-8. -/
def en8Out : List Byte := [0x50, 0x50, 0x82, 0x7d, 0x0c, 0x00, 0x00, 0x00, 0xf4, 0x01, 0x5e, 0xa8, 0xaa, 0x55, 0x02, 0x00, 0xff, 0xff, 0x00, 0x00]

theorem test_encode_stream : ((after .encode en8).obuf.map Prod.snd = en8Out ∧ (after .encode en8).result = 0xA85E)
    ∧ (after .encode en8).olen = 20 ∧ (after .encode en8).envLen = 12 ∧ (after .encode en8).readReg .status = 0x100 := by decide
theorem test_encode_too_long : (after .encode (withCtrl true false (sliced 0 65521))).readReg .status = 0x106
    ∧ (after .encode (withCtrl true false (sliced 16 65521))).readReg .status = 0x105 := by decide

/-! ### DECODE: DE-16; DE-17s -/

theorem test_decode_lenient : (after .decode (withCtrl true false (given 0 (en8Out.set 4 0x08)))).readReg .status = 0x1500
    ∧ (after .decode (withCtrl true false (given 0 (en8Out.set 4 0x08)))).hdr = { cmd := 500, csum := 0xA85E, sid := 0x55AA, rid := 2 }
    ∧ (after .decode (withCtrl true false (given 0 (en8Out.set 4 0x08)))).obuf.map Prod.snd = [0xff, 0xff, 0x00, 0x00] := by decide
theorem test_decode_strict : (after .decode (withCtrl true true (given 0 ((en8Out.set 4 0x08).set 10 0x00)))).readReg .status = 0x11D01
    ∧ (after .decode (withCtrl true true (given 0 (f2.set 10 0x17)))).readReg .status = 0x10D03
    ∧ (after .decode (withCtrl true true (given 0 (f2.take 3)))).readReg .status = 0x101 := by decide

/-! ### Timestamps: TD-17, TD-10; TE-15, TE-4; TH-3, TH-6 -/

theorem test_ts_decode_int : (after .tsDecodeInt { fresh with arg := 0xFFFFFFFF }).ts = { year := 2133, month := 8, day := 18, hour := 6, minute := 28, second := 15 }
    ∧ (after .tsDecodeInt { fresh with arg := 2678400 }).ts = { year := 2000, month := 2, day := 1, hour := 0, minute := 0, second := 0 } := by decide
theorem test_ts_encode_int : (after .tsEncodeInt { fresh with ts := { year := 2001, month := 0xFFFFFFFF, day := 1, hour := 0, minute := 0, second := 0 } }).result = 26784000
    ∧ (after .tsEncodeInt { fresh with ts := { year := 2133, month := 8, day := 18, hour := 6, minute := 28, second := 16 } }).readReg .status = 0x107 := by decide
theorem test_ts_decode_hex : (after .tsDecodeHex (given 0 [0, 0, 0, 0, 0, 0])).readReg .tsMonth = 0xFFFFFFFF
    ∧ (after .tsDecodeHex (given 0 [0x18, 0x0b, 0x0f, 0x08, 0x1e])).readReg .status = 0x102 := by decide

/-! ### Records (section 5 of the vectors) -/

/-- P-US-1. -/
def us1 : List Byte := [0x02, 0x01, 0x0e, 0x31, 0x32, 0x33, 0x00, 0x00, 0x41, 0x6c, 0x69, 0x63, 0x65, 0x00, 0x00, 0x00, 0xaa, 0xaa, 0xaa, 0xaa, 0xaa, 0xaa, 0xaa, 0xaa, 0x39, 0x30, 0x00, 0x00]

/-- P-UL-1. -/
def ul1 : List Byte := [0x07, 0x00, 0x00, 0x31, 0x32, 0x33, 0x34, 0x00, 0x00, 0x00, 0x00, 0x42, 0x6f, 0x62, 0x20, 0x53, 0x6d, 0x69, 0x74, 0x68, 0x00, 0x00, 0x00, 0x00, 0x00, 0x00, 0x00, 0x00, 0x00, 0x00, 0x00, 0x00, 0x00, 0x00, 0x00, 0x4e, 0x61, 0xbc, 0x00, 0x00, 0x00, 0x00, 0x00, 0x00, 0x00, 0x00, 0x00, 0x00, 0x45, 0x4d, 0x50, 0x30, 0x30, 0x31, 0x00, 0x00, 0x00, 0x00, 0x00, 0x00, 0x00, 0x00, 0x00, 0x00, 0x00, 0x00, 0x00, 0x00, 0x00, 0x00, 0x00, 0x00]

/-- P-UL-2. -/
def ul2 : List Byte := [0xff, 0xff, 0x02, 0x41, 0x42, 0x43, 0x44, 0x45, 0x46, 0x47, 0x48, 0x4a, 0xe9, 0x72, 0x00, 0x41, 0x41, 0x41, 0x41, 0x41, 0x41, 0x41, 0x41, 0x41, 0x41, 0x41, 0x41, 0x41, 0x41, 0x41, 0x41, 0x41, 0x41, 0x41, 0x41, 0x00, 0x00, 0x00, 0x00, 0x00, 0x00, 0x00, 0x00, 0x00, 0x00, 0x00, 0x00, 0x00, 0x31, 0x32, 0x33, 0x34, 0x35, 0x36, 0x37, 0x38, 0x39, 0x55, 0x55, 0x55, 0x55, 0x55, 0x55, 0x55, 0x55, 0x55, 0x55, 0x55, 0x55, 0x55, 0x55, 0x55]

/-- P-AS-1. -/
def as1 : List Byte := [0x2a, 0x00, 0xff, 0xff, 0xd5, 0x15, 0x5f, 0x2e, 0x01, 0x00, 0x00, 0x00, 0x00, 0x00, 0x00, 0x00]

/-- P-AL-1. -/
def al1 : List Byte := [0x03, 0x00, 0x31, 0x30, 0x30, 0x31, 0x00, 0x00, 0x00, 0x00, 0x00, 0x00, 0x00, 0x00, 0x00, 0x00, 0x00, 0x00, 0x00, 0x00, 0x00, 0x00, 0x00, 0x00, 0x00, 0x00, 0x01, 0x03, 0x68, 0xe5, 0x2f, 0x00, 0x00, 0x00, 0x00, 0x00, 0x00, 0x00, 0x00, 0x00]

/-- P-RS-2. -/
def rs2 : List Byte := [0xf4, 0x01, 0x00, 0x00, 0x34, 0x12, 0x00, 0x00, 0xff, 0x00, 0x00, 0x00, 0x18, 0x00, 0x0f, 0x08, 0x1e, 0x00]

/-- P-RL-1. -/
def rl1 : List Byte := [0x50, 0x50, 0x82, 0x7d, 0x2c, 0x00, 0x00, 0x00, 0xf4, 0x01, 0x00, 0x00, 0x34, 0x12, 0x00, 0x00, 0x31, 0x32, 0x00, 0x00, 0x00, 0x00, 0x00, 0x00, 0x00, 0x00, 0x00, 0x00, 0x00, 0x00, 0x00, 0x00, 0x00, 0x00, 0x00, 0x00, 0x00, 0x00, 0x00, 0x00, 0x00, 0x00, 0x19, 0x01, 0x1f, 0x17, 0x3b, 0x3b, 0x00, 0x00, 0x00, 0x00]

/-- P-DI-1. -/
def di1 : List Byte := [0x0a, 0x00, 0x00, 0x00, 0x64, 0x00, 0x00, 0x00, 0xa0, 0x86, 0x01, 0x00]

theorem test_parse_user_s : (after .parseUserS (given 0 us1)).recd.uid = some 258 ∧ (after .parseUserS (given 0 us1)).readReg (.recName 0) = 0x63696C41
    ∧ (after .parseUserS (given 0 us1)).readReg (.recName 4) = 0x65 ∧ (after .parseUserS (given 0 us1)).readReg .recUseridNum = 12345 := by decide
theorem test_parse_user_l : (after .parseUserL (given 0 ul1)).recd.password = some [0x31, 0x32, 0x33, 0x34] ∧ (after .parseUserL (given 0 ul1)).readReg .recCard = 12345678
    ∧ (after .parseUserL (given 0 ul1)).recd.useridStr = some [0x45, 0x4d, 0x50, 0x30, 0x30, 0x31] := by decide
theorem test_parse_user_l_full : (after .parseUserL (given 0 ul2)).readReg .recFlags = 1 ∧ (after .parseUserL (given 0 ul2)).readReg .recPwLen = 8
    ∧ (after .parseUserL (given 0 ul2)).recd.name = some [0x4a, 0xe9, 0x72] ∧ (after .parseUserL (given 0 ul2)).readReg (.recUserid 8) = 0x39 := by decide
theorem test_parse_att_s : (after .parseAttS (given 0 as1)).recd.useridNum = some 42 ∧ (after .parseAttS (given 0 as1)).readReg .recValid = 0x140
    ∧ (after .parseAttS (given 0 as1)).ts = { year := 2024, month := 3, day := 15, hour := 10, minute := 30, second := 45 } := by decide
theorem test_parse_att_l : (after .parseAttL (given 0 al1)).recd.userSn = some 3 ∧ (after .parseAttL (given 0 al1)).recd.useridStr = some [0x31, 0x30, 0x30, 0x31]
    ∧ (after .parseAttL (given 0 al1)).ts = { year := 2025, month := 1, day := 1, hour := 12, minute := 5, second := 23 } := by decide
theorem test_parse_rt_s : (after .parseRtS (given 0 rs2)).recd.useridNum = some 255 ∧ (after .parseRtS (given 0 rs2)).tsConv = .zeroIndexed
    ∧ (after .parseRtS (given 0 rs2)).ts = { year := 2024, month := 0xFFFFFFFF, day := 15, hour := 8, minute := 30, second := 0 } := by decide
theorem test_parse_rt_l : (after .parseRtL (given 0 rl1)).readReg (.recUserid 0) = 0x3231 ∧ (after .parseRtL (given 0 rl1)).readReg .recValid = 0x120
    ∧ (after .parseRtL (given 0 rl1)).ts = { year := 2025, month := 0, day := 31, hour := 23, minute := 59, second := 59 } := by decide
theorem test_parse_devinfo : (after .parseDevinfo (given 0 di1)).recd.devUsers = some 10 ∧ (after .parseDevinfo (given 0 di1)).recd.devLogs = some 100
    ∧ (after .parseDevinfo (given 0 di1)).recd.devCap = some 100000 ∧ (after .parseDevinfo (given 0 di1)).readReg .recValid = 0xE00 := by decide
/-- P-E-5, P-E-4: a short slice and a slice outside the buffer. -/
theorem test_parse_short : (after .parseRtS (sliced 65530 5)).readReg .status = 0x102 ∧ (after .parseRtS (sliced 65530 18)).readReg .status = 0x105 := by decide

/-! ### Bus accesses (section 6 of the vectors) -/

theorem test_bus_id : fresh.bus (.read 0x40000 4) = .ok (fresh, 0x46430001) := rfl
theorem test_bus_gap : fresh.bus (.read 0x40038 4) = .error (.busError (.read 0x40038 4)) := rfl
theorem test_bus_narrow_register : fresh.bus (.read 0x40004 2) = .error (.busError (.read 0x40004 2)) := rfl
theorem test_bus_unaligned_buffer : fresh.bus (.write 0x50002 4 0) = .error (.busError (.write 0x50002 4 0)) := rfl
theorem test_bus_below_base : fresh.bus (.read 0x3FFFC 4) = .error (.busError (.read 0x3FFFC 4)) := rfl
theorem test_bus_output_write : fresh.bus (.write 0x60000 4 7) = .ok (fresh, 0) := rfl

/-! ### The host agent -/

theorem test_hazard_stops_run : step (hostedBusy [.wr32 .ilen 4]) = .fault (.hostHazard (.write 0x40014 4 4)) := rfl
theorem test_branch_taken : step { hosted [.label 5, .bnz 0 0x200 5] with host := { prog := [.label 5, .bnz 0 0x200 5], pos := 1, sub := 0, vars := [(0, .word 0x300)] } }
    = .next { hosted [] with host := { prog := [.label 5, .bnz 0 0x200 5], pos := 0, sub := 0, vars := [(0, .word 0x300)] } } := rfl
theorem test_undefined_label : step { fresh with host := { prog := [.bnz 0 1 5], pos := 0, sub := 0, vars := [(0, .word 1)] } } = .refused (.undefinedLabel 5) := rfl
theorem test_rdb_second_byte : step { fresh with ibuf := [(7, 0x11), (8, 0x22)], host := { prog := [.rdbIn 7 2 0], pos := 0, sub := 1, vars := [(0, .bytes [0x11])] } }
    = .next { fresh with ibuf := [(7, 0x11), (8, 0x22)], host := { prog := [.rdbIn 7 2 0], pos := 1, sub := 0, vars := [(0, .bytes [0x11, 0x22])] } } := rfl

/-! ### Witnesses: a concrete state and operands that meet all hypotheses of each statement -/

/-- The invariant holds in a state with an operation pending. -/
theorem hostedBusy_inv (prog : List Stmt) : (hostedBusy prog).Inv :=
  ⟨(show cfg0.legal = true by decide), ⟨List.Pairwise.nil, nofun⟩, ⟨List.Pairwise.nil, nofun⟩, rfl, fun _ h => (Option.some.inj h).symm ▸ rfl, fun _ => rfl,
    Nat.zero_le _, ⟨nofun, nofun, nofun, fun _ => rfl⟩, List.Pairwise.nil⟩

theorem witness_OpWordBytesRoundTrip : decodeBytes [0x22, 0, 0, 0] = .ok (.tsDecodeHex, []) := rfl

theorem witness_StepRunsDecodedOperation : (waiting 0x22).nextTurn = (.engine, { waiting 0x22 with turns := [] })
    ∧ ({ waiting 0x22 with turns := [] } : State).pending = some 0x22 ∧ decodeBytes (bytesOfWord 0x22) = .ok (.tsDecodeHex, []) := ⟨rfl, rfl, rfl⟩

theorem witness_IllegalWordWritesOnlyStatus : (waiting 0x17).nextTurn = (.engine, { waiting 0x17 with turns := [] })
    ∧ ({ waiting 0x17 with turns := [] } : State).pending = some 0x17
    ∧ (0x17 : Word).toNat ∉ [0x01, 0x02, 0x03, 0x10, 0x11, 0x12, 0x13, 0x14, 0x15, 0x16, 0x20, 0x21, 0x22] := ⟨rfl, rfl, by decide⟩

theorem witness_TurnsAreTakenInOrder : (waiting 0x01).turns = [.engine] ∧ (fresh.turns = [] ∧ fresh.pending = none)
    ∧ (∃ s : State, s.turns = [] ∧ s.pending = some 0x01 ∧ s.delay = 0) ∧ (∃ s : State, s.turns = [] ∧ s.pending = some 0x01 ∧ s.delay = 0 + 1)
    ∧ ∃ s : State, s.turns = .engine :: [] ∧ s.pending = none :=
  ⟨rfl, ⟨rfl, rfl⟩, ⟨{ fresh with pending := some 0x01 }, rfl, rfl, rfl⟩, ⟨{ fresh with pending := some 0x01, delay := 1 }, rfl, rfl, rfl⟩,
    ⟨{ fresh with turns := [.engine] }, rfl, rfl⟩⟩

theorem witness_ResetClearsEveryRegister : ({ waiting 0x01 with turns := [.reset] } : State).turns = .reset :: [] := rfl

theorem witness_InvariantKeptByStep : (hostedBusy [.rd32 .status 0]).Inv ∧ ∃ t, step (hostedBusy [.rd32 .status 0]) = .next t :=
  ⟨hostedBusy_inv _, _, rfl⟩

theorem witness_PendingOperationCompletes : (hostedBusy [.rd32 .status 0]).Inv ∧ (hostedBusy [.rd32 .status 0]).pending ≠ none :=
  ⟨hostedBusy_inv _, nofun⟩

theorem witness_HostCannotDisturbPendingOperation : (hostedBusy [.rd32 .status 0]).nextTurn = (.host, { hostedBusy [.rd32 .status 0] with turns := [] })
    ∧ (hostedBusy [.rd32 .status 0]).status.busy = true ∧ ∃ t, step (hostedBusy [.rd32 .status 0]) = .next t := ⟨rfl, rfl, _, rfl⟩

/-- The conditions inside the conclusion: an error, a flag-writing DECODE, a set `CSUM_STICKY`. -/
theorem witness_EveryOperationCompletes : (after .csum (sliced 65535 2)).status.err ≠ .ok
    ∧ ({ fresh with status := { fresh.status with csumSticky := true } } : State).status.csumSticky = true := ⟨by decide, rfl⟩

theorem witness_NoOperationWritesItsInputs : exec .encode en8 = .next (after .encode en8) := after_eq _ _

/-- A host turn that changes a byte of `IBUF`, and the completion of an ENCODE that writes `OBUF`. -/
theorem witness_BuffersChangeOnlyAsNamed :
    (∃ t, step { hosted [.wrb 0 [0x55]] with ibuf := [(0, 0x00)] } = .next t ∧ t.ibufByte 0 = 0x55)
      ∧ ∃ t, step { en8.withPending 0x02 with obuf := [(0, 0x00)] } = .next t ∧ t.obufByte 0 = 0x50 :=
  ⟨⟨_, rfl, rfl⟩, ⟨_, rfl, rfl⟩⟩

theorem witness_BoundsCheckedFirst : ¬ (sliced 65536 1).SliceFits ∧ (after .decode (sliced 65536 1)).status.err = .bounds :=
  ⟨fun h => absurd (sliceInBounds_iff.2 h) (by decide), by decide⟩

theorem witness_ShortSliceIsDecodeError : neededWidth cfg0 .parseUserS = some 28 ∧ (sliced 65509 27).SliceFits ∧ (27 : Word).toNat < 28
    ∧ (after .parseUserS (sliced 65509 27)).status.err = .decodeError ∧ neededWidth cfg0 .tsDecodeHex = some 6 ∧ neededWidth cfg0 .parseDevinfo = some 12 :=
  ⟨rfl, sliceInBounds_iff.1 (by decide), by decide, by decide, rfl, rfl⟩

theorem witness_SliceIsTheNamedBytes : 0 < (given 0 f2).ilen.toNat ∧ 15 < (given 0 f2).ilen.toNat := by decide

theorem witness_ChecksumCheckIdentity : (0x16 : Byte).toNat + 256 * (0xfc : Byte).toNat = checksum (0xe8 :: 0x03 :: 0 :: 0 :: [0, 0, 0, 0]) := by decide

theorem witness_ChecksumIgnoresWordOrder : ([0x01, 0x02] : List Byte).length % 2 = 0 ∧ ([] : List Byte).length % 2 = 0 := by decide

theorem witness_CsumGivesChecksumOfSlice : (sliced 65536 0).SliceFits ∧ (sliced 0 65536).SliceFits :=
  ⟨sliceInBounds_iff.1 (by decide), sliceInBounds_iff.1 (by decide)⟩

theorem frameFits_of (s : State) (h : s.encodeTooLong = false) : s.FrameFits :=
  not_not.1 fun hn => absurd (encodeTooLong_iff.2 hn) (by rw [h]; decide)

theorem witness_EncodeBuildsFrame :
    (cfg0.legal = true ∧ (withCtrl true false (sliced 16 65520)).SliceFits ∧ (withCtrl true false (sliced 16 65520)).FrameFits)
      ∧ (withCtrl false true (sliced 0 65528)).SliceFits ∧ (withCtrl false true (sliced 0 65528)).FrameFits ∧ 3 < en8.ilen.toNat :=
  ⟨⟨by decide, sliceInBounds_iff.1 (by decide), frameFits_of _ (by decide)⟩, sliceInBounds_iff.1 (by decide), frameFits_of _ (by decide), by decide⟩

theorem witness_EncodeFrameCondition : exec .encode en8 = .next (after .encode en8) ∧ frameAt en8.ctrl.stream + 8 + en8.ilen.toNat ≤ 20 :=
  ⟨after_eq _ _, by decide⟩

theorem witness_EncodeRefusesLongFrames :
    ((withCtrl true false (sliced 0 65521)).SliceFits ∧ ¬ (withCtrl true false (sliced 0 65521)).FrameFits)
      ∧ ((withCtrl false false (sliced 0 65529)).SliceFits ∧ ¬ (withCtrl false false (sliced 0 65529)).FrameFits)
      ∧ (withCtrl true false (sliced 0 65520)).FrameFits :=
  ⟨⟨sliceInBounds_iff.1 (by decide), encodeTooLong_iff.1 (by decide)⟩, ⟨sliceInBounds_iff.1 (by decide), encodeTooLong_iff.1 (by decide)⟩,
    frameFits_of _ (by decide)⟩

theorem witness_EnvelopeStripsToDatagram :
    cfg0.legal = true ∧ (after .encode { en8 with ctrl := { en8.ctrl with stream := true } }).status.err = .ok
      ∧ (after .encode { en8 with ctrl := { en8.ctrl with stream := false } }).status.err = .ok := by decide

/-- Frame f2 as a stream frame: the envelope is found. -/
theorem f2_env (strict : Bool) : true = true ↔ (withCtrl true strict (given 0 f2)).EnvFound := by
  rw [← hasEnvelope_iff]; cases strict <;> decide

/-- Frame f2 as a datagram: no envelope. -/
theorem f2_noEnv (strict : Bool) : false = true ↔ (withCtrl false strict (given 0 f2)).EnvFound := by
  rw [← hasEnvelope_iff]; cases strict <;> decide

/-- DE-1 in strict mode, and DE-4: both shapes of the statement. -/
theorem witness_DecodeTakesFrameApart :
    ((true = true ↔ (withCtrl true true (given 0 f2)).EnvFound) ∧ (withCtrl true true (given 0 f2)).SliceFits
        ∧ frameAt true + 8 ≤ (withCtrl true true (given 0 f2)).ilen.toNat
        ∧ ((withCtrl true true (given 0 f2)).frameFlags true).lenMismatch = false
        ∧ ((withCtrl true true (given 0 f2)).frameFlags true).csumMismatch = false)
      ∧ (false = true ↔ (withCtrl false false (given 0 f2)).EnvFound) ∧ (withCtrl false false (given 0 f2)).SliceFits
        ∧ frameAt false + 8 ≤ (withCtrl false false (given 0 f2)).ilen.toNat ∧ (withCtrl false false (given 0 f2)).ctrl.strict = false :=
  ⟨⟨f2_env true, sliceInBounds_iff.1 (by decide), by decide, by decide, by decide⟩, f2_noEnv false, sliceInBounds_iff.1 (by decide), by decide, rfl⟩

theorem witness_DecodeFrameCondition : (true = true ↔ (withCtrl true false (given 0 f2)).EnvFound)
    ∧ exec .decode (withCtrl true false (given 0 f2)) = .next (after .decode (withCtrl true false (given 0 f2))) := ⟨f2_env false, after_eq _ _⟩

/-- DE-10, DE-11 and DE-8: cases (a), (b) and (c). -/
theorem witness_DecodeMalformedFrames :
    ((true = true ↔ (withCtrl true false (given 0 (f2.take 15))).EnvFound) ∧ (withCtrl true false (given 0 (f2.take 15))).SliceFits
        ∧ (withCtrl true false (given 0 (f2.take 15))).ilen.toNat < frameAt true + 8)
      ∧ ((false = true ↔ (withCtrl false false (given 0 (f2.take 7))).EnvFound) ∧ (withCtrl false false (given 0 (f2.take 7))).SliceFits
        ∧ (withCtrl false false (given 0 (f2.take 7))).ilen.toNat < frameAt false + 8)
      ∧ ((true = true ↔ (withCtrl true true (given 0 (f2.set 4 0x09))).EnvFound) ∧ (withCtrl true true (given 0 (f2.set 4 0x09))).SliceFits
        ∧ frameAt true + 8 ≤ (withCtrl true true (given 0 (f2.set 4 0x09))).ilen.toNat
        ∧ u16At (withCtrl true true (given 0 (f2.set 4 0x09))).sliceByte 4 ≠ (withCtrl true true (given 0 (f2.set 4 0x09))).ilen.toNat - 8)
      ∧ (after .decode (withCtrl true true (given 0 (f2.set 4 0x09)))).status.err = .malformedFrame := by
  refine ⟨⟨?_, sliceInBounds_iff.1 (by decide), by decide⟩, ⟨?_, sliceInBounds_iff.1 (by decide), by decide⟩,
    ⟨?_, sliceInBounds_iff.1 (by decide), by decide, by decide⟩, by decide⟩ <;> rw [← hasEnvelope_iff] <;> decide

/-- DE-5 and DE-6. -/
theorem witness_ChecksumMismatchByMode :
    ((true = true ↔ (withCtrl true true (given 0 (f2.set 10 0x17))).EnvFound) ∧ (withCtrl true true (given 0 (f2.set 10 0x17))).SliceFits
        ∧ frameAt true + 8 ≤ (withCtrl true true (given 0 (f2.set 10 0x17))).ilen.toNat
        ∧ (withCtrl true true (given 0 (f2.set 10 0x17))).receivedChecksum true
            ≠ u16At (withCtrl true true (given 0 (f2.set 10 0x17))).sliceByte (frameAt true + 2)
        ∧ u16At (withCtrl true true (given 0 (f2.set 10 0x17))).sliceByte 4 = (withCtrl true true (given 0 (f2.set 10 0x17))).ilen.toNat - 8)
      ∧ (withCtrl true false (given 0 (f2.set 10 0x17))).ctrl.strict = false
      ∧ (after .decode (withCtrl true true (given 0 (f2.set 10 0x17)))).status.err = .checksumMismatch := by
  refine ⟨⟨?_, sliceInBounds_iff.1 (by decide), by decide, by decide, by decide⟩, rfl, by decide⟩
  rw [← hasEnvelope_iff]; decide

/-- EN-8, its output copied into `IBUF`. -/
theorem witness_DecodeUndoesEncode :
    cfg0.legal = true ∧ exec .encode en8 = .next (after .encode en8) ∧ (after .encode en8).status.err = .ok
      ∧ (withCtrl true true (given 0 en8Out)).SliceFits ∧ (withCtrl true true (given 0 en8Out)).ilen = (after .encode en8).olen
      ∧ ∀ k, k < (after .encode en8).olen.toNat → (withCtrl true true (given 0 en8Out)).sliceByte k = (after .encode en8).outByte k := by
  refine ⟨by decide, after_eq _ _, by decide, sliceInBounds_iff.1 (by decide), by decide, ?_⟩
  have h : ∀ k, k < 20 → (withCtrl true true (given 0 en8Out)).sliceByte k = (after .encode en8).outByte k := by decide
  intro k hk
  exact h k (by have e : (after .encode en8).olen.toNat = 20 := by decide
                omega)

/-- TE-2, TE-3 and TE-4: the value -1, the largest u32, and 2^32. -/
theorem witness_TsEncodeIntFormula :
    (after .tsEncodeInt { fresh with ts := { year := 1999, month := 12, day := 31, hour := 23, minute := 59, second := 59 } }).status.err = .range
      ∧ (after .tsEncodeInt { fresh with ts := { year := 2133, month := 8, day := 18, hour := 6, minute := 28, second := 15 } }).result = 0xFFFFFFFF
      ∧ ((2133 - 2000) * 12 + 8 - 1 : Int) * 2678400 + (18 - 1) * 86400 + 6 * 3600 + 28 * 60 + 16 = 4294967296 := by decide

theorem witness_TsDecodeHexFields : (sliced 65530 6).SliceFits ∧ 6 ≤ (sliced 65530 6).ilen.toNat := ⟨sliceInBounds_iff.1 (by decide), by decide⟩

theorem witness_TsEncodeUndoesDecode : exec .tsDecodeInt { fresh with arg := 0xFFFFFFFF } = .next (after .tsDecodeInt { fresh with arg := 0xFFFFFFFF }) :=
  after_eq _ _

/-- The canonical fields of TE-1. -/
def canonical : State := { fresh with ts := { year := 2024, month := 3, day := 15, hour := 10, minute := 30, second := 45 } }

theorem witness_TsDecodeUndoesEncode :
    (2000 ≤ canonical.ts.year.toInt ∧ 1 ≤ canonical.ts.month.toInt ∧ canonical.ts.month.toInt ≤ 12 ∧ 1 ≤ canonical.ts.day.toInt
      ∧ canonical.ts.day.toInt ≤ 31 ∧ 0 ≤ canonical.ts.hour.toInt ∧ canonical.ts.hour.toInt ≤ 23 ∧ 0 ≤ canonical.ts.minute.toInt
      ∧ canonical.ts.minute.toInt ≤ 59 ∧ 0 ≤ canonical.ts.second.toInt ∧ canonical.ts.second.toInt ≤ 59)
      ∧ exec .tsEncodeInt canonical = .next (after .tsEncodeInt canonical) ∧ (after .tsEncodeInt canonical).status.err = .ok
      ∧ exec .tsDecodeInt { after .tsEncodeInt canonical with arg := (after .tsEncodeInt canonical).result }
          = .next (after .tsDecodeInt { after .tsEncodeInt canonical with arg := (after .tsEncodeInt canonical).result }) :=
  ⟨by decide, after_eq _ _, by decide, after_eq _ _⟩

/-- TH-2 and the fix of the month. -/
def th2 : State := after .tsDecodeHex (given 0 [0x19, 0x01, 0x1f, 0x17, 0x3b, 0x3b])

theorem witness_MonthConventionHazard :
    exec .tsDecodeHex (given 0 [0x19, 0x01, 0x1f, 0x17, 0x3b, 0x3b]) = .next th2 ∧ th2.status.err = .ok
      ∧ (after .tsEncodeInt th2).status.err = .ok ∧ (after .tsEncodeInt (th2.writeReg (th2.ts.month + 1) .tsMonth)).status.err = .ok
      ∧ (after .tsEncodeInt th2).result = 803519999 ∧ (after .tsEncodeInt (th2.writeReg (th2.ts.month + 1) .tsMonth)).result = 806198399
      ∧ (after .parseRtS (given 0 rs2)).status.err = .ok ∧ (after .parseRtL (given 0 rl1)).status.err = .ok :=
  ⟨after_eq _ _, by decide, by decide, by decide, by decide, by decide, by decide, by decide⟩

theorem witness_TsDecodeFrameCondition : exec .tsDecodeHex (given 0 [0x19, 0x01, 0x1f, 0x17, 0x3b, 0x3b]) = .next th2 := after_eq _ _

theorem witness_ScalarResultFrameCondition : exec .tsEncodeInt canonical = .next (after .tsEncodeInt canonical) := after_eq _ _

theorem witness_ParseUserShortRecord : (sliced 65508 28).SliceFits ∧ 28 ≤ (sliced 65508 28).ilen.toNat := ⟨sliceInBounds_iff.1 (by decide), by decide⟩
theorem witness_ParseUserLongRecord : (sliced 65464 72).SliceFits ∧ 72 ≤ (sliced 65464 72).ilen.toNat := ⟨sliceInBounds_iff.1 (by decide), by decide⟩
theorem witness_ParseAttendanceShortRecord : (sliced 65520 16).SliceFits ∧ 16 ≤ (sliced 65520 16).ilen.toNat := ⟨sliceInBounds_iff.1 (by decide), by decide⟩
theorem witness_ParseAttendanceLongRecord : (sliced 65496 40).SliceFits ∧ 40 ≤ (sliced 65496 40).ilen.toNat := ⟨sliceInBounds_iff.1 (by decide), by decide⟩
theorem witness_ParseRealTimeShortRecord : (sliced 65518 18).SliceFits ∧ 18 ≤ (sliced 65518 18).ilen.toNat := ⟨sliceInBounds_iff.1 (by decide), by decide⟩
theorem witness_ParseRealTimeLongRecord : (sliced 65484 52).SliceFits ∧ 52 ≤ (sliced 65484 52).ilen.toNat := ⟨sliceInBounds_iff.1 (by decide), by decide⟩
theorem witness_ParseDevinfoRecord : cfg0.legal = true ∧ (sliced 65524 12).SliceFits ∧ cfg0.devWidth ≤ (sliced 65524 12).ilen.toNat :=
  ⟨by decide, sliceInBounds_iff.1 (by decide), by decide⟩

theorem witness_ParseFrameCondition : exec .parseUserS (given 0 us1) = .next (after .parseUserS (given 0 us1))
    ∧ exec .parseRtS (given 0 rs2) = .next (after .parseRtS (given 0 rs2)) := ⟨after_eq _ _, after_eq _ _⟩

/-- P-US-1 with other bytes where the layout has no field. -/
theorem witness_ParseReadsOnlyCoveredBytes : cfg0.legal = true ∧ neededWidth cfg0 .parseUserS = some 28 ∧ 28 ≤ (given 0 us1).ilen.toNat
    ∧ ∀ k, Covers cfg0 .parseUserS k → ({ given 0 us1 with ibuf := writeBytes [] 0 ((us1.set 3 0xEE).set 23 0xEE) } : State).sliceByte k = (given 0 us1).sliceByte k := by
  refine ⟨by decide, rfl, by decide, fun k hk => ?_⟩
  have h : ∀ k, k < 28 → k ≠ 3 → k ≠ 23 →
      ({ given 0 us1 with ibuf := writeBytes [] 0 ((us1.set 3 0xEE).set 23 0xEE) } : State).sliceByte k = (given 0 us1).sliceByte k := by decide
  rcases hk with h1 | ⟨h1, h2⟩ | ⟨h1, h2⟩ <;> exact h k (by omega) (by omega) (by omega)

theorem witness_StringWindowsReadBytes : Record.empty.Ok := ⟨nofun, nofun, nofun, fun _ => rfl⟩

theorem witness_UnsetFieldsReadZero : (fresh.readReg .recValid).getLsbD 0 = false ∧ (fresh.readReg .recValid).getLsbD 11 = false
    ∧ ((after .parseUserS (given 0 us1)).readReg .recValid).getLsbD 2 = false := by decide

theorem witness_RegisterWriteReadsBack : Reg.stored .ctrl = some 0x3 ∧ Reg.stored .hdrRid = some 0xFFFF ∧ Reg.stored .tsSec = some 0xFFFFFFFF
    ∧ fresh.status.busy = false := ⟨rfl, rfl, rfl, rfl⟩

theorem witness_ReadOnlyWritesIgnored : Reg.wf .id = true ∧ Reg.stored .id = none ∧ Reg.wf (.recUserid 8) = true ∧ Reg.stored (.recUserid 8) = none
    ∧ fresh.status.busy = false := ⟨rfl, rfl, by decide, rfl, rfl⟩

theorem witness_StatusWriteClearsSticky : fresh.status.busy = false ∧ (0x00010000 : Word).getLsbD 16 = true ∧ (0x0000FFFF : Word).getLsbD 16 = false := by decide

theorem witness_OpWriteStartsOperation : fresh.status.busy = false := rfl

/-- The last register, the last string word, the last word of a buffer; and just past each. -/
theorem witness_BusErrorsExactly : cfg0.legal = true ∧ fresh.status.busy = false ∧ Admitted cfg0 0x400B4 4 ∧ Admitted cfg0 0x400E8 4
    ∧ Admitted cfg0 0x5FFFC 4 ∧ Admitted cfg0 0x6FFFF 1 ∧ ¬ Admitted cfg0 0x400B8 4 ∧ ¬ Admitted cfg0 0x400EC 4 ∧ ¬ Admitted cfg0 0x70000 1 := by
  refine ⟨by decide, rfl, ⟨0xB4, rfl, .inl ⟨rfl, by decide, by decide⟩⟩, ⟨0xE8, rfl, .inl ⟨rfl, by decide, by decide⟩⟩,
    ⟨0x1FFFC, rfl, .inr ⟨0xFFFC, by decide, by decide, by decide, by decide⟩⟩,
    ⟨0x2FFFF, rfl, .inr ⟨0xFFFF, by decide, by decide, by decide, by decide⟩⟩, ?_, ?_, ?_⟩ <;>
  · rintro ⟨a, ha, h⟩
    simp only [cfg0] at ha h
    rcases h with ⟨h4, h⟩ | ⟨i, h1, h2, h3⟩ <;> omega

theorem witness_HazardsExactly : (fresh.startOp 0x01).status.busy = true ∧ (.write 0x40008 4 0x00010000 : BusOp) ≠ .read (cfg0.base + 0x008) 4 := by decide

/-- The last word of the buffer with its upper half, and its last byte. -/
theorem witness_InputWindowWriteReadsBack : cfg0.legal = true ∧ fresh.status.busy = false ∧ (65532 : Nat) % 4 = 0 ∧ 65532 + 4 ≤ cfg0.bufBytes
    ∧ (2 : Nat) % 2 = 0 ∧ 2 + 2 ≤ 4 ∧ 65535 % 1 = 0 ∧ 65535 + 1 ≤ cfg0.bufBytes := by decide

/-- MEM-1: the halfwords of the word written. -/
theorem test_bus_halfwords : ∃ t, fresh.bus (.write 0x50000 4 0x7D825050) = .ok (t, 0) ∧ t.bus (.read 0x50000 2) = .ok (t, 0x5050)
    ∧ t.bus (.read 0x50002 2) = .ok (t, 0x7D82) := ⟨_, rfl, rfl, rfl⟩

theorem witness_OutputWindowIsReadOnly : cfg0.legal = true ∧ fresh.status.busy = false ∧ (65534 : Nat) % 2 = 0 ∧ 65534 + 2 ≤ cfg0.bufBytes := by decide

/-- A read; the first and the last register name of the map, and one that is none. -/
theorem witness_ReadsHaveNoSideEffect : (∃ t v, fresh.bus (.read 0x40008 4) = .ok (t, v)) ∧ fresh.status.busy = false ∧ Reg.wf .id = true
    ∧ Reg.wf (.recUserid 8) = true ∧ (0x0E8, Reg.recUserid 8) ∈ registerTable ∧ Reg.wf (.recUserid 12) = false :=
  ⟨⟨_, _, rfl⟩, rfl, rfl, by decide, by decide, by decide⟩

/-- A host that stands at byte `sub` of the only statement of its program, with the variables `vars`. -/
def standing (st : Stmt) (sub : Nat) (vars : List (Nat × Value)) : State :=
  { fresh with host := { prog := [st], pos := 0, sub := sub, vars := vars } }

theorem standing_HostAt (st : Stmt) (sub : Nat) (vars : List (Nat × Value)) : HostAt (standing st sub vars) (standing st sub vars) st :=
  ⟨rfl, rfl⟩

/-- Every statement that makes an access, where the access is answered; the first and the last byte of a `wrb` and an `rdb`. -/
theorem witness_StepServesRegisterStatements :
    (∀ st sub vars, HostAt (standing st sub vars) (standing st sub vars) st)
      ∧ (∃ u w, (standing (.wr32 .arg 7) 0 []).bus (.write (0x40000 + Reg.offset .arg) 4 7) = .ok (u, w))
      ∧ (∃ u w, (standing (.rd32 .id 3) 0 []).bus (.read (0x40000 + Reg.offset .id) 4) = .ok (u, w))
      ∧ (∃ u w, (standing (.wrb 8 [1, 2]) 1 []).bus (.write (0x40000 + 0x10000 + 8 + 1) 1 2) = .ok (u, w))
      ∧ (∃ u w, (standing (.rdbOut 8 2 3) 1 [(3, .bytes [9])]).bus (.read (0x40000 + 0x20000 + 8 + 1) 1) = .ok (u, w))
      ∧ assocGet 3 (standing (.rdbOut 8 2 3) 1 [(3, .bytes [9])]).host.vars = some (.bytes [9])
      ∧ ([1, 2] : List Byte)[1]? = some 2 ∧ 1 < 2
      ∧ ∃ f, ({ hostedBusy [.rd32 .id 3] with turns := [] } : State).bus (.read (0x40000 + Reg.offset .id) 4) = .error f :=
  ⟨standing_HostAt, ⟨_, _, rfl⟩, ⟨_, _, rfl⟩, ⟨_, _, rfl⟩, ⟨_, _, rfl⟩, rfl, rfl, by decide, _, rfl⟩

/-- The clauses on `bnz`: no branch, a branch to the label's first place, a missing label; and the program's end. -/
theorem witness_StepServesControlFlow :
    Masks [(3, .word 0x200)] 3 0x200 ∧ (0x200 : Word) &&& 0x100 = 0 ∧ (0x200 : Word) &&& 0x200 ≠ 0
      ∧ ([.bnz 3 0x200 5, .label 5] : List Stmt)[1]? = some (.label 5)
      ∧ (∀ q : Nat, q < 1 → ([.bnz 3 0x200 5, .label 5] : List Stmt)[q]? ≠ some (.label 5))
      ∧ (∀ p : Nat, ([.bnz 3 0x200 5] : List Stmt)[p]? ≠ some (.label 5)) ∧ ([] : List Stmt)[0]? = none := by
  refine ⟨.inl rfl, by decide, by decide, rfl, by decide, fun p => ?_, rfl⟩
  cases p <;> simp

end Sys2Proof.Tests
end

section
/-! PROOFS. The slice of an operation (R11). -/

namespace Sys2Proof.Machine

theorem getElem?_slice (s : State) {k : Nat} (hk : k < s.ilen.toNat) :
    s.slice[k]? = some (s.ibufByte (s.ioff.toNat + k)) := by
  rw [State.slice, List.getElem?_map, List.getElem?_range hk, Option.map_some]

/-- Settles O16: the slice maps the first `ILEN` offsets to the bytes of `IBUF` from `IOFF` on. -/
theorem sliceIsTheNamedBytes : Obligations.SliceIsTheNamedBytes :=
  fun s => ⟨slice_length s, fun _ hk => getElem?_slice s hk⟩

end Sys2Proof.Machine
end

section
/-! PROOFS. The engine's turn, case by case (R139). -/

namespace Sys2Proof.Machine

variable {s t : State}

/-- What the completion of a pending word can do (R139): the operation of its op code, or ILLEGAL_OP. -/
theorem complete_cases {w : Word} (h : s.complete w = .next t) :
    (∃ i, w = Sys2Proof.encode i ∧ exec i s = .next t) ∨ t = s.finish .illegalOp .clear := by
  unfold State.complete at h
  split at h
  case h_1 i hd => exact .inl ⟨i, decode_ok hd, h⟩
  case h_2 => injection h with h; exact .inr h.symm

theorem engineTurn_cases (h : s.engineTurn = .next t) :
    (s.pending = none ∧ t = s) ∨ ∃ w, s.pending = some w ∧ s.complete w = .next t := by
  unfold State.engineTurn at h
  split at h
  case h_1 w hp => exact .inr ⟨w, hp, h⟩
  case h_2 hp => injection h with h; exact .inl ⟨hp, h.symm⟩

end Sys2Proof.Machine
end

section
/-! PROOFS. The invariant, operation by operation of the state: each shared operation keeps it, so every turn does. -/

namespace Sys2Proof.Machine

variable {s t : State}

/-! ### The operations of the engine -/

theorem State.Inv.finish (h : s.Inv) (e : Err) (fl : DecodeFlags) : (s.finish e fl).Inv :=
  { h with busy := rfl, pending := nofun, done := nofun }

theorem State.Inv.noteMismatch (h : s.Inv) (b : Bool) : (s.noteMismatch b).Inv := { h with }

theorem State.Inv.setResult (h : s.Inv) (v : Word) : (s.setResult v).Inv := { h with }

theorem State.Inv.setTime (h : s.Inv) (c : Civil) (m : MonthConv) : (s.setTime c m).Inv := { h with }

/-- `OLEN` holds the length of an output that fits its buffer (R25). -/
theorem toNat_ofNat_le {len n : Nat} (h : len ≤ n) : (BitVec.ofNat 32 len).toNat ≤ n := by
  rw [BitVec.toNat_ofNat]; exact (Nat.mod_le ..).trans h

theorem State.Inv.commitEncode (h : s.Inv) {out : List Byte} (hl : out.length ≤ s.cfg.bufBytes) (c e : Half) :
    (s.commitEncode out c e).Inv :=
  { h with obuf := wf_writeBytes _ out 0 _ h.obuf (by simpa using hl), olen := toNat_ofNat_le hl }

theorem State.Inv.commitDecode (h : s.Inv) {v : FrameView} (hl : v.payload.length ≤ s.cfg.bufBytes) : (s.commitDecode v).Inv :=
  { h with obuf := wf_writeBytes _ v.payload 0 _ h.obuf (by simpa using hl), olen := toNat_ofNat_le hl }

/-- An admitted frame fits `OBUF` (R91). -/
theorem encodeOutput_length_le (h : s.FrameFits) : (encodeOutput s.ctrl.stream s.hdr s.slice).length ≤ s.cfg.bufBytes := by
  rw [encodeOutput_length, slice_length]
  unfold State.FrameFits at h
  cases hs : s.ctrl.stream <;> simp [hs, frameAt] at h ⊢ <;> omega

theorem State.Inv.encoded (h : s.Inv) (hf : s.FrameFits) : s.encoded.Inv :=
  (h.commitEncode (encodeOutput_length_le hf) _ _).finish _ _

theorem State.Inv.commitParse (h : s.Inv) {p : Parsed} (hp : ({ p.recd with hasTime := p.time.isSome } : Record).Ok) :
    (s.commitParse p).Inv := by
  cases hT : p.time with
  | none => rw [commitParse_none s p hT]; rw [hT] at hp; exact { h with recd := hp }
  | some ct => rw [commitParse_some s p ct.1 ct.2 hT]; rw [hT] at hp; exact { h with recd := hp }

/-- Every operation keeps the invariant. -/
theorem State.Inv.exec {i : Instr} (h : s.Inv) (he : exec i s = .next t) : t.Inv := by
  obtain ⟨e, fl, b, rfl, -, -⟩ | ⟨v, -, rfl⟩ | ⟨-, -, hf, rfl⟩ | ⟨v, fl, b, -, hS, hl, rfl⟩ | ⟨c, m, -, rfl⟩ | ⟨p, rfl, hp⟩ :=
    exec_cases i he
  · exact (h.noteMismatch b).finish e fl
  · exact (h.setResult v).finish _ _
  · exact h.encoded hf
  · have hl' : v.payload.length ≤ s.cfg.bufBytes := by unfold State.SliceFits at hS; omega
    exact ((h.noteMismatch b).commitDecode hl').finish _ _
  · exact (h.setTime c m).finish _ _
  · refine (h.commitParse ?_).finish _ _
    rcases hp with ⟨-, rfl⟩ | ⟨-, rfl⟩ | ⟨-, rfl⟩ | ⟨-, rfl⟩ | ⟨-, rfl⟩ | ⟨-, rfl⟩ | ⟨-, rfl⟩
    · exact ⟨stringOk_none _, stringOk_asciiz _ _ _ _ (by omega), stringOk_none _, nofun⟩
    · exact ⟨stringOk_asciiz _ _ _ _ (by omega), stringOk_asciiz _ _ _ _ (by omega), stringOk_asciiz _ _ _ _ (by omega), nofun⟩
    · exact ⟨stringOk_none _, stringOk_none _, stringOk_none _, nofun⟩
    · exact ⟨stringOk_none _, stringOk_none _, stringOk_asciiz _ _ _ _ (by omega), nofun⟩
    · exact ⟨stringOk_none _, stringOk_none _, stringOk_none _, nofun⟩
    · exact ⟨stringOk_none _, stringOk_none _, stringOk_asciiz _ _ _ _ (by omega), nofun⟩
    · exact ⟨stringOk_none _, stringOk_none _, stringOk_none _, nofun⟩

theorem State.Inv.engineTurn (h : s.Inv) (he : s.engineTurn = .next t) : t.Inv := by
  obtain ⟨-, rfl⟩ | ⟨w, -, hw⟩ := engineTurn_cases he
  · exact h
  · obtain ⟨i, -, hi⟩ | rfl := complete_cases hw
    · exact h.exec hi
    · exact h.finish _ _

/-! ### Reset and the host -/

theorem Record.Ok.empty : Record.empty.Ok := ⟨stringOk_none _, stringOk_none _, stringOk_none _, fun _ => rfl⟩

theorem State.Inv.assertReset (h : s.Inv) : s.assertReset.Inv :=
  { h with
    ibuf := (wf_reset _).1, obuf := (wf_reset _).2, busy := rfl, pending := nofun, done := nofun, olen := Nat.zero_le _
    recd := .empty }

theorem State.Inv.startOp (h : s.Inv) (w : Word) : (s.startOp w).Inv :=
  { h with busy := rfl, pending := fun _ hw => Option.some.inj hw, done := fun _ => rfl }

/-- A register write leaves every field the invariant speaks of, but for `OP`, whose value it also makes pending (R23). -/
theorem State.Inv.writeReg (h : s.Inv) (v : Word) (r : Reg) : (s.writeReg v r).Inv := by
  cases r
  case op => exact h.startOp v
  all_goals exact { h with }

theorem State.Inv.bus {op : BusOp} {v : Word} (h : s.Inv) (hb : s.bus op = .ok (t, v)) : t.Inv := by
  obtain rfl | ⟨-, r, w, rfl⟩ | ⟨-, i, bs, hl, rfl⟩ := bus_cases hb
  · exact h
  · exact h.writeReg w r
  · exact { h with ibuf := wf_writeBytes _ bs i _ h.ibuf hl }

theorem State.Inv.withHost (h : s.Inv) {a : HostAgent} (ha : Rising a.vars) : (s.withHost a).Inv := { h with vars := ha }

theorem State.Inv.hostTurn (h : s.Inv) (ht : s.hostTurn = .next t) : t.Inv := by
  obtain rfl | ⟨op, u, v, hu, st, rfl⟩ | ⟨p, rfl⟩ | ⟨st, rfl⟩ := hostTurn_cases ht
  · exact h
  · exact (h.bus hu).withHost (rising_after _ st v h.vars)
  · exact h.withHost h.vars
  · exact h.withHost (rising_storeNone _ st h.vars)

/-! ### A step -/

theorem State.Inv.takeTurn (h : s.Inv) (turn : Turn) (ht : s.takeTurn turn = .next t) : t.Inv := by
  cases turn with
  | host => exact h.hostTurn ht
  | engine => exact h.engineTurn ht
  | reset => injection ht with ht; subst ht; exact h.assertReset

theorem State.Inv.nextTurn (h : s.Inv) : s.nextTurn.2.Inv := by
  obtain ⟨d, hd⟩ := nextTurn_fields s
  rw [hd]; exact { h with }

/-- Settles O8: using up a turn keeps the invariant, and so does each agent's turn. -/
theorem invariantKeptByStep : Obligations.InvariantKeptByStep :=
  fun s _ h hs => h.nextTurn.takeTurn s.nextTurn.1 hs

end Sys2Proof.Machine
end

section
/-! PROOFS. What each operation leaves unchanged (R43). -/

namespace Sys2Proof.Machine

variable {s t : State}

/-! ### A buffer byte depends only on its buffer and on the count of resets (log 3, log 4) -/

theorem ibufByte_congr (hb : t.ibuf = s.ibuf) (he : t.epoch = s.epoch) (a : Nat) : t.ibufByte a = s.ibufByte a := by
  unfold State.ibufByte; rw [hb, he]

theorem obufByte_congr (hb : t.obuf = s.obuf) (he : t.epoch = s.epoch) (a : Nat) : t.obufByte a = s.obufByte a := by
  unfold State.obufByte; rw [hb, he]

/-! ### The parses -/

theorem commitParse_frame (s : State) (p : Parsed) :
    s.commitParse p
      = { s with recd := (s.commitParse p).recd, ts := (s.commitParse p).ts, tsConv := (s.commitParse p).tsConv } := by
  cases h : p.time with
  | none => rw [commitParse_none s p h]
  | some ct => rw [commitParse_some s p ct.1 ct.2 h]

theorem parse_frame (s : State) (w : Nat) (l : List Byte → Parsed) :
    s.parse w l
      = { s with
          recd := (s.parse w l).recd, ts := (s.parse w l).ts, tsConv := (s.parse w l).tsConv
          status := (s.parse w l).status, pending := none } := by
  obtain ⟨-, h⟩ | ⟨-, -, h⟩ | ⟨-, -, h⟩ := parse_cases (s := s) w l
  · rw [h]; rfl
  · rw [h]; rfl
  · rw [h, commitParse_frame]; rfl

theorem parse_frame_of_noTime (s : State) (w : Nat) {l : List Byte → Parsed} (hl : ∀ S, (l S).time = none) :
    s.parse w l = { s with recd := (s.parse w l).recd, status := (s.parse w l).status, pending := none } := by
  obtain ⟨-, h⟩ | ⟨-, -, h⟩ | ⟨-, -, h⟩ := parse_cases (s := s) w l
  · rw [h]; rfl
  · rw [h]; rfl
  · rw [h, commitParse_none s _ (hl _)]; rfl

theorem parse_keeps_buffers (s : State) (w : Nat) (l : List Byte → Parsed) (a : Nat) :
    (s.parse w l).ibufByte a = s.ibufByte a ∧ (s.parse w l).obufByte a = s.obufByte a := by
  rw [parse_frame]; exact ⟨rfl, rfl⟩

/-- Settles O45: every parse is one `State.parse`, and a layout without a time leaves the timestamp bank too. -/
theorem parseFrameCondition : Obligations.ParseFrameCondition := by
  constructor
  · rintro i s t (rfl | rfl | rfl) h <;> injection h with h <;> subst h
    all_goals exact ⟨parse_frame_of_noTime s _ fun _ => rfl, parse_keeps_buffers s _ _⟩
  · rintro i s t (rfl | rfl | rfl | rfl) h <;> injection h with h <;> subst h
    all_goals exact ⟨parse_frame s _ _, parse_keeps_buffers s _ _⟩

/-! ### The timestamp operations and CSUM -/

theorem execTsDecodeInt_finish (h : exec .tsDecodeInt s = .next t) :
    ∃ c, t = (s.setTime c .oneIndexed).finish .ok .clear :=
  ⟨_, (Host.Outcome.next.inj h).symm⟩

/-- Settles O36: success writes the bank and its convention, an error neither. -/
theorem tsDecodeFrameCondition : Obligations.TsDecodeFrameCondition := by
  rintro i s t (rfl | rfl) h
  · obtain ⟨c, rfl⟩ := execTsDecodeInt_finish h
    exact ⟨rfl, fun _ => ⟨rfl, rfl⟩⟩
  · obtain ⟨-, rfl⟩ | ⟨-, -, rfl⟩ | ⟨-, -, rfl⟩ := execTsDecodeHex_cases h
    all_goals exact ⟨rfl, fun _ => ⟨rfl, rfl⟩⟩

/-- Settles O37: success writes `RESULT`, an error not even that. -/
theorem scalarResultFrameCondition : Obligations.ScalarResultFrameCondition := by
  rintro i s t (rfl | rfl) h
  · obtain ⟨-, rfl⟩ | ⟨-, rfl⟩ := execCsum_cases h
    all_goals exact ⟨rfl, fun _ => ⟨rfl, rfl⟩⟩
  · obtain ⟨-, rfl⟩ | ⟨-, -, rfl⟩ := execTsEncodeInt_cases h
    all_goals exact ⟨rfl, fun _ => ⟨rfl, rfl⟩⟩

/-! ### ENCODE and DECODE -/

/-- A run of bytes written from index 0 leaves the bytes after it (R40). -/
theorem obufByte_writeBytes_of_length_le (s : State) {bs : List Byte} {a : Nat} (h : bs.length ≤ a) :
    ({ s with obuf := writeBytes s.obuf 0 bs }).obufByte a = s.obufByte a := by
  rw [obufByte_writeBytes, if_neg (by omega)]

/-- Settles O22: only a successful ENCODE stores bytes, and those are the output's. -/
theorem encodeFrameCondition : Obligations.EncodeFrameCondition := by
  intro s t h
  obtain ⟨-, rfl⟩ | ⟨-, -, rfl⟩ | ⟨-, -, rfl⟩ := execEncode_cases h
  · exact ⟨rfl, fun _ => rfl, fun _ _ => rfl⟩
  · exact ⟨rfl, fun _ => rfl, fun _ _ => rfl⟩
  · refine ⟨rfl, fun _ => rfl, fun a ha => obufByte_writeBytes_of_length_le s ?_⟩
    rw [encodeOutput_length, slice_length]; exact ha

theorem frameView_payload_length (s : State) {env : Bool} (henv : env = true ↔ s.EnvFound) :
    s.frameView.payload.length = s.ilen.toNat - (frameAt env + 8) := by
  unfold State.frameView
  rw [hasEnvelope_eq env henv, viewFrame_payload, List.length_drop, slice_length]

/-- Settles O26: only a successful DECODE stores bytes, and those are the payload's. -/
theorem decodeFrameCondition : Obligations.DecodeFrameCondition := by
  intro s t env henv h
  obtain ⟨-, rfl⟩ | ⟨-, -, rfl⟩ | ⟨-, -, -, -, rfl⟩ | ⟨-, -, -, -, -, rfl⟩ | ⟨-, -, -, rfl⟩ := execDecode_cases h
  iterate 4 exact ⟨rfl, fun _ => rfl, fun _ _ => rfl⟩
  refine ⟨rfl, fun _ => rfl, fun a ha => obufByte_writeBytes_of_length_le s ?_⟩
  rw [frameView_payload_length s henv]; exact ha

/-! ### Every operation -/

/-- The registers and data that operations write (R43); every other field of the state stands. -/
theorem exec_frame {i : Instr} (h : exec i s = .next t) :
    t = { s with
          result := t.result, hdr := t.hdr, envLen := t.envLen, olen := t.olen, ts := t.ts, tsConv := t.tsConv, recd := t.recd
          obuf := t.obuf, status := t.status, pending := t.pending } := by
  obtain ⟨e, fl, b, rfl, -, -⟩ | ⟨v, -, rfl⟩ | ⟨-, -, -, rfl⟩ | ⟨v, fl, b, -, -, -, rfl⟩ | ⟨c, m, -, rfl⟩ | ⟨p, rfl, -⟩ :=
    exec_cases i h
  case inr.inr.inr.inr.inr => rw [commitParse_frame]; rfl
  all_goals rfl

/-- Settles O12: the inputs are among the fields that stand. -/
theorem noOperationWritesItsInputs : Obligations.NoOperationWritesItsInputs := by
  intro i s t h
  rw [exec_frame h]
  exact ⟨rfl, rfl, rfl, rfl, rfl, fun _ => rfl, rfl, rfl, rfl, rfl, rfl, rfl, rfl⟩

theorem exec_epoch {i : Instr} (h : exec i s = .next t) : t.epoch = s.epoch := by rw [exec_frame h]

/-- Only ENCODE and DECODE write `OBUF` (R40). -/
theorem exec_obuf {i : Instr} (h : exec i s = .next t) (h1 : i ≠ .encode) (h2 : i ≠ .decode) : t.obuf = s.obuf := by
  obtain ⟨e, fl, b, rfl, -, -⟩ | ⟨v, -, rfl⟩ | ⟨hi, -⟩ | ⟨-, -, -, hi, -⟩ | ⟨c, m, -, rfl⟩ | ⟨p, rfl, -⟩ := exec_cases i h
  · rfl
  · rfl
  · exact absurd hi h1
  · exact absurd hi h2
  · rfl
  · exact commitParse_obuf s p

/-! ### Turns -/

theorem writeReg_obuf (s : State) (v : Word) (r : Reg) : (s.writeReg v r).obuf = s.obuf := by cases r <;> rfl

theorem writeReg_epoch (s : State) (v : Word) (r : Reg) : (s.writeReg v r).epoch = s.epoch := by cases r <;> rfl

/-- No access of the host writes `OBUF` (R50). -/
theorem hostTurn_obufByte (h : s.hostTurn = .next t) (a : Nat) : t.obufByte a = s.obufByte a := by
  obtain rfl | ⟨op, u, v, hu, st, rfl⟩ | ⟨p, rfl⟩ | ⟨st, rfl⟩ := hostTurn_cases h
  · rfl
  · obtain rfl | ⟨-, r, w, rfl⟩ | ⟨-, i, bs, -, rfl⟩ := bus_cases hu
    · rfl
    · exact obufByte_congr (writeReg_obuf s w r) (writeReg_epoch s w r) a
    · rfl
  · rfl
  · rfl

theorem engineTurn_ibufByte (h : s.engineTurn = .next t) (a : Nat) : t.ibufByte a = s.ibufByte a := by
  obtain ⟨-, rfl⟩ | ⟨w, -, hw⟩ := engineTurn_cases h
  · rfl
  · obtain ⟨i, -, hi⟩ | rfl := complete_cases hw
    · rw [exec_frame hi]; rfl
    · rfl

/-- The engine changes a byte of `OBUF` only when the pending word is the op code of ENCODE or DECODE (R40, R65). -/
theorem pending_of_engineTurn_obufByte_ne (h : s.engineTurn = .next t) {a : Nat} (ha : t.obufByte a ≠ s.obufByte a) :
    s.pending = some 0x02 ∨ s.pending = some 0x03 := by
  obtain ⟨-, rfl⟩ | ⟨w, hp, hw⟩ := engineTurn_cases h
  · exact absurd rfl ha
  obtain ⟨i, rfl, hi⟩ | rfl := complete_cases hw
  case inr => exact absurd rfl ha
  by_cases h1 : i = .encode
  · exact .inl (by rw [hp, h1]; rfl)
  by_cases h2 : i = .decode
  · exact .inr (by rw [hp, h2]; rfl)
  exact absurd (obufByte_congr (exec_obuf hi h1 h2) (exec_epoch hi) a) ha

theorem nextTurn_ibufByte (s : State) (a : Nat) : s.nextTurn.2.ibufByte a = s.ibufByte a := by
  obtain ⟨d, hd⟩ := nextTurn_fields s
  rw [hd]; rfl

theorem nextTurn_obufByte (s : State) (a : Nat) : s.nextTurn.2.obufByte a = s.obufByte a := by
  obtain ⟨d, hd⟩ := nextTurn_fields s
  rw [hd]; rfl

theorem nextTurn_pending (s : State) : s.nextTurn.2.pending = s.pending := by
  obtain ⟨d, hd⟩ := nextTurn_fields s
  rw [hd]

/-- Settles O13: the host writes no `OBUF`, the engine no `IBUF`, and `OBUF` only for ENCODE and DECODE; using up a turn
changes neither buffer. -/
theorem buffersChangeOnlyAsNamed : Obligations.BuffersChangeOnlyAsNamed := by
  intro s t h
  unfold step at h
  simp only [← nextTurn_ibufByte s, ← nextTurn_obufByte s, ← nextTurn_pending s]
  cases hturn : s.nextTurn.1 <;> rw [hturn] at h
  case host => exact ⟨fun _ => .inl rfl, fun ⟨a, ha⟩ => absurd (hostTurn_obufByte h a) ha⟩
  case engine =>
    exact ⟨fun ⟨a, ha⟩ => absurd (engineTurn_ibufByte h a) ha,
      fun ⟨a, ha⟩ => .inr ⟨rfl, pending_of_engineTurn_obufByte_ne h ha⟩⟩
  case reset => exact ⟨fun _ => .inr rfl, fun _ => .inl rfl⟩

end Sys2Proof.Machine
end

section
/-! PROOFS. What the registers read as (R19 to R38). -/

namespace Sys2Proof.Machine

/-! ### Flags in a word -/

/-- A flag at a bit above a word adds that bit's weight. -/
theorem or_bitAt {w : Word} {n : Nat} (k : Nat) (b : Bool) (h : w.toNat < 2 ^ n) (hnk : n < k) (hk : k ≤ 32) :
    (w ||| bitAt n b).toNat = w.toNat + b.toNat * 2 ^ n ∧ (w ||| bitAt n b).toNat < 2 ^ k := by
  have hbit : (bitAt n b).toNat = 2 ^ n * b.toNat := by
    have hn : 2 ^ n < 2 ^ 32 := Nat.pow_lt_pow_right (by decide) (by omega)
    cases b <;> simp [bitAt, Nat.shiftLeft_eq, Nat.mod_eq_of_lt hn, -Nat.reducePow]
  have heq : (w ||| bitAt n b).toNat = w.toNat + b.toNat * 2 ^ n := by
    rw [BitVec.toNat_or, hbit, Nat.or_comm, ← Nat.two_pow_add_eq_or_of_lt h, Nat.mul_comm, Nat.add_comm]
  have hpow : 2 ^ n * 2 ≤ 2 ^ k := by rw [← Nat.pow_succ]; exact Nat.pow_le_pow_right (by decide) hnk
  have hb : b.toNat * 2 ^ n ≤ 1 * 2 ^ n := Nat.mul_le_mul_right _ b.toNat_le
  exact ⟨heq, by omega⟩

/-- Settles O50: each flag stands above everything before it. -/
theorem statusBits : Obligations.StatusBits := by
  intro s
  have h0 : (s.status.err.code.setWidth 32).toNat < 2 ^ 8 := by cases s.status.err <;> decide
  obtain ⟨e1, h1⟩ := or_bitAt 9 s.status.done h0 (by decide) (by decide)
  obtain ⟨e2, h2⟩ := or_bitAt 10 s.status.busy h1 (by decide) (by decide)
  obtain ⟨e3, h3⟩ := or_bitAt 11 s.status.flags.envPresent h2 (by decide) (by decide)
  obtain ⟨e4, h4⟩ := or_bitAt 12 s.status.flags.csumMismatch h3 (by decide) (by decide)
  obtain ⟨e5, h5⟩ := or_bitAt 13 s.status.flags.lenMismatch h4 (by decide) (by decide)
  obtain ⟨e6, h6⟩ := or_bitAt 16 s.status.flags.rsvNonzero h5 (by decide) (by decide)
  obtain ⟨e7, -⟩ := or_bitAt 17 s.status.csumSticky h6 (by decide) (by decide)
  have hw : (s.readReg .status).toNat = _ := e7
  rw [hw, e6, e5, e4, e3, e2, e1]
  cases s.status.err <;> rfl

/-! ### Strings and fields of the record bank -/

/-- A string word holds the four bytes at its place (R37). -/
theorem bytesOfWord_stringWord (str : Option (List Byte)) (k : Nat) :
    bytesOfWord (stringWord str k)
      = [(str.getD []).getD k 0, (str.getD []).getD (k + 1) 0, (str.getD []).getD (k + 2) 0, (str.getD []).getD (k + 3) 0] :=
  bytesOfWord_wordOfBytes _ _ _ _

theorem stringWord_byte (str : Option (List Byte)) (k : Nat) {r : Nat} (hr : r < 4) :
    (stringWord str k).extractLsb' (8 * r) 8 = (str.getD []).getD (k + r) 0 := by
  have hbytes := bytesOfWord_stringWord str k
  simp only [bytesOfWord, List.cons.injEq, and_true] at hbytes
  obtain ⟨h0, h1, h2, h3⟩ := hbytes
  interval_cases r
  exacts [h0, h1, h2, h3]

theorem stringWord_byte_of_index (str : Option (List Byte)) (j : Nat) :
    (stringWord str (4 * (j / 4))).extractLsb' (8 * (j % 4)) 8 = (str.getD []).getD j 0 := by
  rw [stringWord_byte str _ (Nat.mod_lt j (by decide)), Nat.div_add_mod]

theorem toNat_stringLen {str : Option (List Byte)} {w : Nat} (h : stringOk w str) (hw : w < 2 ^ 32) :
    (stringLen str).toNat = (str.getD []).length := by
  rw [stringLen, BitVec.toNat_ofNat, Nat.mod_eq_of_lt]
  cases str with
  | none => decide
  | some bs => exact (h bs rfl).1.trans_lt hw

/-- Settles O47: the windows are `stringWord`, the length registers `stringLen`. -/
theorem stringWindowsReadBytes : Obligations.StringWindowsReadBytes :=
  fun _ j => ⟨stringWord_byte_of_index _ j, stringWord_byte_of_index _ j, stringWord_byte_of_index _ j, fun h =>
    ⟨toNat_stringLen h.name (by decide), toNat_stringLen h.password (by decide), toNat_stringLen h.useridStr (by decide)⟩⟩

theorem stringWord_none (k : Nat) : stringWord none k = 0 := by simp [stringWord, wordOfBytes]

theorem stringLen_none : stringLen none = 0 := rfl

/-- Settles O48: a `REC_VALID` bit says whether its field is set, and each register of an unset field reads 0. -/
theorem unsetFieldsReadZero : Obligations.UnsetFieldsReadZero := by
  intro s
  obtain ⟨b0, b1, b2, b3, b4, b5, b6, b7, -, b9, b10, b11⟩ := validWord_bits s.recd
  simp only [State.readReg, b0, b1, b2, b3, b4, b5, b6, b7, b9, b10, b11, Option.isSome_eq_false_iff, Option.isNone_iff_eq_none]
  refine ⟨?_, ?_, ?_, ?_, ?_, ?_, ?_, ?_, ?_, ?_, ?_⟩ <;> intro hunset <;> rw [hunset]
  case refine_3 | refine_4 | refine_6 => exact ⟨stringLen_none, stringWord_none⟩
  all_goals rfl

theorem hasHighByte_getD_iff (str : Option (List Byte)) :
    hasHighByte (str.getD []) = true ↔ ∃ bs, str = some bs ∧ ∃ b ∈ bs, 0x80 ≤ b.toNat := by
  cases str <;> simp [hasHighByte]

theorem bitAt_zero_eq_one_iff (b : Bool) : bitAt 0 b = 1 ↔ b = true := by cases b <;> decide

theorem bitAt_zero_cases (b : Bool) : bitAt 0 b = 0 ∨ bitAt 0 b = 1 := by cases b <;> decide

/-- Settles O49: REC_FLAGS is one bit, set when one of the three strings has a high byte. -/
theorem nonAsciiFlag : Obligations.NonAsciiFlag := by
  refine fun s => ⟨(bitAt_zero_eq_one_iff _).trans ?_, bitAt_zero_cases _⟩
  simp only [Bool.or_eq_true, hasHighByte_getD_iff, or_and_right, exists_or, or_assoc]

end Sys2Proof.Machine
end

section
/-! PROOFS. Host writes to registers (R18, R20 to R31). -/

namespace Sys2Proof.Machine

theorem bus_writeReg (s : State) {r : Reg} (v : Word) (hr : r.wf = true) (hb : s.status.busy = false) :
    s.bus (.write (s.cfg.base + r.offset) 4 v) = .ok (s.writeReg v r, 0) :=
  bus_write s _ 4 v _ hb (busTarget_reg s.cfg r hr)

theorem bus_readReg (s : State) {r : Reg} (hr : r.wf = true) (hb : s.status.busy = false) :
    s.bus (.read (s.cfg.base + r.offset) 4) = .ok (s, s.readReg r) :=
  bus_read s _ 4 _ hb (busTarget_reg s.cfg r hr)

/-- Settles O53: bit 16 is the only one a write to STATUS looks at. -/
theorem statusWriteClearsSticky : Obligations.StatusWriteClearsSticky := by
  refine fun s v hb => ⟨_, bus_writeReg s (r := .status) v rfl hb, ?_, rfl⟩
  change (s.status.csumSticky && !v.getLsbD 16) = _
  cases v.getLsbD 16 <;> simp

/-- Settles O54: the write is `State.startOp`. -/
theorem opWriteStartsOperation : Obligations.OpWriteStartsOperation :=
  fun s w hb => ⟨s.startOp w, bus_writeReg s (r := .op) w rfl hb, rfl, rfl, rfl⟩

theorem writeReg_of_readOnly (s : State) {r : Reg} (v : Word) (h : r.stored = none) (hs : r ≠ .status) (ho : r ≠ .op) :
    s.writeReg v r = s := by
  cases r
  case status => exact absurd rfl hs
  case op => exact absurd rfl ho
  all_goals cases h <;> rfl

/-- Settles O52: the write reaches a register that ignores it. -/
theorem readOnlyWritesIgnored : Obligations.ReadOnlyWritesIgnored :=
  fun s r v hr h hs ho hb => by rw [bus_writeReg s v hr hb, writeReg_of_readOnly s v h hs ho]

/-! ### Storing registers -/

section Stored

variable (s : State) {r : Reg} {mask : Word} (v : Word) (hr : r.stored = some mask)
include hr

theorem wf_of_stored : r.wf = true := by cases r <;> cases hr <;> rfl

/-- A storing register touches nothing of the block but its own field. -/
theorem writeReg_stored_keeps :
    (s.writeReg v r).status = s.status ∧ (s.writeReg v r).cfg = s.cfg ∧ (s.writeReg v r).ibuf = s.ibuf
      ∧ (s.writeReg v r).obuf = s.obuf ∧ (s.writeReg v r).pending = s.pending ∧ (s.writeReg v r).epoch = s.epoch := by
  cases r <;> cases hr <;> exact ⟨rfl, rfl, rfl, rfl, rfl, rfl⟩

/-- Another register reads a field that the write leaves, whichever of R18's registers it is. -/
theorem readReg_writeReg_other {r' : Reg} (hne : r' ≠ r) : (s.writeReg v r).readReg r' = s.readReg r' := by
  cases r <;> cases hr <;> cases r' <;> first | rfl | exact absurd rfl hne

end Stored

theorem setWidth_setWidth_eq_and (v : Word) : (v.setWidth 16).setWidth 32 = v &&& 0xFFFF := by
  apply BitVec.eq_of_toNat_eq
  rw [BitVec.toNat_and, show (0xFFFF : Word).toNat = 2 ^ 16 - 1 from rfl, Nat.and_two_pow_sub_one_eq_mod]
  simp only [BitVec.toNat_setWidth]
  omega

theorem ctrl_word_ofWord (v : Word) : (Ctrl.ofWord v).word = v &&& 0x3 := by
  have hbits : ∀ i < 32, ∀ b0 b1, (Ctrl.word ⟨b0, b1⟩).getLsbD i = (decide (i = 0) && b0 || decide (i = 1) && b1) := by decide
  have hmask : ∀ i < 32, (0x3 : Word).getLsbD i = (decide (i = 0) || decide (i = 1)) := by decide
  apply BitVec.eq_of_getLsbD_eq
  intro i hi
  rw [Ctrl.ofWord, hbits i hi, BitVec.getLsbD_and, hmask i hi]
  rcases i with _ | _ | i <;> simp

theorem readReg_writeReg_same (s : State) {r : Reg} {mask : Word} (v : Word) (hr : r.stored = some mask) :
    (s.writeReg v r).readReg r = v &&& mask := by
  cases r <;> cases hr
  case ctrl => exact ctrl_word_ofWord v
  case hdrCmd | hdrSid | hdrRid => exact setWidth_setWidth_eq_and v
  all_goals exact BitVec.and_allOnes.symm

/-- Settles O51: the write is admitted and stores; the read after it is admitted as nothing became pending. -/
theorem registerWriteReadsBack : Obligations.RegisterWriteReadsBack := by
  intro s r mask v hr hb
  have hwf := wf_of_stored hr
  obtain ⟨hstatus, hcfg, hibuf, hobuf, hpending, hepoch⟩ := writeReg_stored_keeps s v hr
  refine ⟨s.writeReg v r, bus_writeReg s v hwf hb, ?_, fun r' hne => readReg_writeReg_other s v hr hne,
    fun a => ⟨ibufByte_congr hibuf hepoch a, obufByte_congr hobuf hepoch a⟩, hpending⟩
  rw [← hcfg, bus_readReg _ hwf (by rw [hstatus, hb]), readReg_writeReg_same s v hr]

end Sys2Proof.Machine
end

section
/-! PROOFS. The register map, and which accesses the bus admits (R18, R44 to R54). -/

namespace Sys2Proof.Machine

variable {s t : State}

/-! ### The register map -/

/-- The two lists of the map hold exactly the well-formed register names (R18, R37). -/
theorem mem_registers_iff (r : Reg) : r ∈ Reg.plain ++ Reg.strings ↔ r.wf = true :=
  ⟨(by decide : ∀ r ∈ Reg.plain ++ Reg.strings, r.wf = true) r, fun h => List.mem_of_find?_eq_some (regAt_offset r h).1⟩

theorem mem_registerTable_iff (a : Nat) (r : Reg) : (a, r) ∈ registerTable ↔ r.wf = true ∧ a = r.offset := by
  have htable : registerTable = (Reg.plain ++ Reg.strings).map fun r => (r.offset, r) := by decide
  rw [htable, List.mem_map, ← mem_registers_iff]
  constructor
  · rintro ⟨r', hr', heq⟩; cases heq; exact ⟨hr', rfl⟩
  · rintro ⟨hr, rfl⟩; exact ⟨r, hr, rfl⟩

theorem regAt_eq_some_iff {a : Nat} {r : Reg} : regAt a = some r ↔ r.wf = true ∧ r.offset = a := by
  constructor
  · intro h
    exact ⟨(mem_registers_iff r).1 (List.mem_of_find?_eq_some h), by simpa using List.find?_some h⟩
  · rintro ⟨hr, rfl⟩; exact (regAt_offset r hr).1

/-- The assigned offsets are the words of four stretches of the register window (R18, R46): a check of the names one way, of
the 59 words up to the last one the other way. -/
theorem exists_offset_eq_iff (a : Nat) :
    (∃ r : Reg, r.wf = true ∧ r.offset = a)
      ↔ a % 4 = 0 ∧ (a ≤ 0x034 ∨ 0x040 ≤ a ∧ a ≤ 0x058 ∨ 0x080 ≤ a ∧ a ≤ 0x0B4 ∨ 0x0C0 ≤ a ∧ a ≤ 0x0E8) := by
  have hword : ∀ k < 59, (k ≤ 13 ∨ 16 ≤ k ∧ k ≤ 22 ∨ 32 ≤ k ∧ k ≤ 45 ∨ 48 ≤ k ∧ k ≤ 58) →
      ∃ r ∈ Reg.plain ++ Reg.strings, r.offset = 4 * k := by decide
  simp only [← mem_registers_iff]
  constructor
  · rintro ⟨r, hr, rfl⟩; revert r; decide
  · rintro ⟨halign, hrange⟩
    obtain ⟨r, hr, ho⟩ := hword (a / 4) (by omega) (by omega)
    exact ⟨r, hr, by omega⟩

/-! ### Which accesses are admitted -/

/-- The bus reaches a target exactly by the admitted accesses (R44, R46, R50, R51). -/
theorem admitted_iff {p : Params} (hp : p.legal = true) (addr n : Nat) :
    Admitted p addr n ↔ ∃ T, busTarget p addr n = some T := by
  constructor
  · rintro ⟨a, rfl, ⟨rfl, hreg⟩ | ⟨i, rfl | rfl, hbuf⟩⟩
    · obtain ⟨r, hr, rfl⟩ := (exists_offset_eq_iff a).2 hreg
      exact ⟨_, busTarget_reg p r hr⟩
    · rw [← Nat.add_assoc]; exact ⟨_, busTarget_in p i n hp ((bufAdmits_iff p i n).2 hbuf)⟩
    · rw [← Nat.add_assoc]; exact ⟨_, busTarget_out p i n hp ((bufAdmits_iff p i n).2 hbuf)⟩
  · rintro ⟨T, hT⟩
    obtain ⟨a, ha, ⟨rfl, -, r, hr, -⟩ | ⟨i, rfl, hbuf, -⟩ | ⟨i, rfl, hbuf, -⟩⟩ := busTarget_cases hT
    · exact ⟨a, ha, .inl ⟨rfl, (exists_offset_eq_iff a).1 ⟨r, regAt_eq_some_iff.1 hr⟩⟩⟩
    · exact ⟨_, ha, .inr ⟨i, .inl rfl, (bufAdmits_iff p i n).1 hbuf⟩⟩
    · exact ⟨_, ha, .inr ⟨i, .inr rfl, (bufAdmits_iff p i n).1 hbuf⟩⟩

theorem bus_of_target {op : BusOp} {T : Target} (hb : s.status.busy = false)
    (h : busTarget s.cfg op.addr op.width = some T) : ∃ t v, s.bus op = .ok (t, v) := by
  cases op with
  | read a n => exact ⟨_, _, bus_read s a n T hb h⟩
  | write a n v => exact ⟨_, _, bus_write s a n v T hb h⟩

theorem bus_of_no_target {op : BusOp} (hb : s.status.busy = false) (h : busTarget s.cfg op.addr op.width = none) :
    s.bus op = .error (.busError op) := by
  simp [State.bus, hb, h]

/-- Settles O55: with nothing pending only the target decides, and the admitted accesses are those that have one. -/
theorem busErrorsExactly : Obligations.BusErrorsExactly := by
  intro s op hp hb
  rw [admitted_iff hp]
  exact ⟨fun ⟨_, hT⟩ => bus_of_target hb hT, fun h => bus_of_no_target hb (by simpa [Option.eq_none_iff_forall_ne_some] using h)⟩

/-! ### Reads, and accesses while an operation is pending -/

/-- A read that is answered leaves the state as it was (R54), whether or not an operation is pending. -/
theorem bus_read_state {addr n : Nat} {v : Word} (h : s.bus (.read addr n) = .ok (t, v)) : t = s := by
  unfold State.bus at h
  split at h
  · cases h
  · split at h <;> cases h
    rfl

theorem toNat_ctrl_word (c : Ctrl) : c.word.toNat = c.stream.toNat + 2 * c.strict.toNat := by
  obtain ⟨stream, strict⟩ := c
  cases stream <;> cases strict <;> rfl

theorem monthConv_word_eq (c : MonthConv) : c.word = if c = .zeroIndexed then 1 else 0 := by cases c <;> rfl

theorem toNat_zeroExtend_half (h : Half) : (h.setWidth 32).toNat = h.toNat := BitVec.toNat_setWidth_of_le (by decide)

/-- Settles O59: a read keeps the state; the table is the map of names and offsets; each register named is its field. -/
theorem readsHaveNoSideEffect : Obligations.ReadsHaveNoSideEffect :=
  ⟨fun _ _ _ _ _ h => bus_read_state h, fun s _ hr hb => bus_readReg s hr hb, mem_registerTable_iff, fun s =>
    ⟨rfl, toNat_ctrl_word s.ctrl, rfl, rfl, rfl, rfl, rfl, rfl, toNat_zeroExtend_half _, toNat_zeroExtend_half _,
      toNat_zeroExtend_half _, toNat_zeroExtend_half _, toNat_zeroExtend_half _, rfl, rfl, rfl, rfl, rfl, rfl,
      monthConv_word_eq s.tsConv⟩⟩

/-- Settles O10: using up the turn writes `turns` and `delay`, and the host's turn while BUSY is 1 only the host agent. -/
theorem hostCannotDisturbPendingOperation : Obligations.HostCannotDisturbPendingOperation := by
  intro s s1 t hturn hb hstep
  obtain ⟨d, hd⟩ := nextTurn_fields s
  have hs1 : s1 = { s with turns := s.turns.tail, delay := d } := by rw [← hd, hturn]
  have hb1 : s1.status.busy = true := by rw [hs1]; exact hb
  rw [step_host hturn] at hstep
  rw [hostTurn_busy hb1 hstep, hs1]

end Sys2Proof.Machine
end

section
/-! PROOFS. The two buffer windows: little-endian bytes of 1, 2 or 4 (R47 to R51). -/

namespace Sys2Proof.Machine

variable {s : State}

/-! ### Little-endian numbers (R49) -/

theorem leNat_lt (bs : List Byte) : leNat bs < 2 ^ (8 * bs.length) := by
  induction bs with
  | nil => exact Nat.one_pos
  | cons b bs ih =>
    have hb := b.isLt
    rw [leNat, List.length_cons, Nat.mul_succ, Nat.pow_add]
    omega

theorem leNat_byte (bs : List Byte) (k : Nat) : leNat bs / 2 ^ (8 * k) % 256 = (bs.getD k 0).toNat := by
  induction bs generalizing k with
  | nil => simp [leNat]
  | cons b bs ih =>
    have hb := b.isLt
    cases k with
    | zero => simp only [leNat, Nat.mul_zero, pow_zero, List.getD_cons_zero]; omega
    | succ k =>
      rw [leNat, List.getD_cons_succ, ← ih k, Nat.mul_succ, Nat.pow_add', ← Nat.div_div_eq_div_mul]
      congr 2
      omega

/-- The bytes of a number, taken from byte `j` on, are its part above `8 * j` bits. -/
theorem leNat_bytes (v : Word) (j m : Nat) :
    leNat ((List.range m).map fun k => v.extractLsb' (8 * (j + k)) 8) = v.toNat / 2 ^ (8 * j) % 2 ^ (8 * m) := by
  induction m generalizing j with
  | zero => simp [leNat, Nat.mod_one]
  | succ m ih =>
    have htail : (List.map (fun k => v.extractLsb' (8 * (j + k)) 8) (List.map Nat.succ (List.range m)))
        = (List.range m).map fun k => v.extractLsb' (8 * (j + 1 + k)) 8 := by
      simp [Nat.add_assoc, Nat.add_comm 1]
    rw [List.range_succ_eq_map, List.map_cons, leNat, htail, ih, BitVec.extractLsb'_toNat, Nat.shiftRight_eq_div_pow,
      Nat.mul_succ 8 m, Nat.pow_add' 2 (8 * m) 8, Nat.mod_mul, Nat.div_div_eq_div_mul, ← Nat.pow_add, ← Nat.mul_succ]
    rfl

/-- What a read of at most four bytes of a buffer answers: those bytes, zero-extended (R49, log 17). -/
theorem windowWord_bytes (f : Nat → Byte) (i : Nat) {n : Nat} (hn : n ≤ 4) :
    (BitVec.ofNat 32 (leNat ((List.range n).map fun k => f (i + k)))).toNat < 2 ^ (8 * n)
      ∧ ∀ k, k < n →
          (BitVec.ofNat 32 (leNat ((List.range n).map fun k => f (i + k)))).extractLsb' (8 * k) 8 = f (i + k) := by
  have hlt := leNat_lt ((List.range n).map fun k => f (i + k))
  rw [List.length_map, List.length_range] at hlt
  have hword : 2 ^ (8 * n) ≤ 2 ^ 32 := Nat.pow_le_pow_right (by decide) (by omega)
  have htoNat := (BitVec.toNat_ofNat _ _).trans (Nat.mod_eq_of_lt (hlt.trans_le hword))
  refine ⟨htoNat.trans_lt hlt, fun k hk => BitVec.eq_of_toNat_eq ?_⟩
  rw [BitVec.extractLsb'_toNat, htoNat, Nat.shiftRight_eq_div_pow, leNat_byte]
  simp [List.getD_eq_getElem?_getD, hk]

/-! ### The windows -/

section Access

variable {i n : Nat} (hp : s.cfg.legal = true) (hb : s.status.busy = false) (h : bufAdmits s.cfg i n = true)
include hp hb h

theorem bus_read_in :
    s.bus (.read (s.cfg.base + 0x10000 + i) n)
      = .ok (s, BitVec.ofNat 32 (leNat ((List.range n).map fun k => s.ibufByte (i + k)))) :=
  bus_read s _ n _ hb (busTarget_in s.cfg i n hp h)

theorem bus_write_in (v : Word) :
    s.bus (.write (s.cfg.base + 0x10000 + i) n v) = .ok (s.writeTarget v (.inBuf i n), 0) :=
  bus_write s _ n v _ hb (busTarget_in s.cfg i n hp h)

theorem bus_read_out :
    s.bus (.read (s.cfg.base + 0x20000 + i) n)
      = .ok (s, BitVec.ofNat 32 (leNat ((List.range n).map fun k => s.obufByte (i + k)))) :=
  bus_read s _ n _ hb (busTarget_out s.cfg i n hp h)

theorem bus_write_out (v : Word) : s.bus (.write (s.cfg.base + 0x20000 + i) n v) = .ok (s, 0) :=
  bus_write s _ n v _ hb (busTarget_out s.cfg i n hp h)

end Access

/-- A write of `n` bytes to the input window changes these and no other byte (R48). -/
theorem ibufByte_writeTarget (s : State) (v : Word) (i n a : Nat) :
    (s.writeTarget v (.inBuf i n)).ibufByte a
      = if i ≤ a ∧ a < i + n then v.extractLsb' (8 * (a - i)) 8 else s.ibufByte a := by
  rw [State.writeTarget, ibufByte_writeBytes, List.length_map, List.length_range]
  split
  case isTrue ha => simp [List.getD_eq_getElem?_getD, show a - i < n by omega]
  case isFalse => rfl

/-- An aligned part of an admitted access is admitted (R51). -/
theorem bufAdmits_part {p : Params} {i n j m : Nat} (h : bufAdmits p i n = true) (hm : m = 1 ∨ m = 2 ∨ m = 4)
    (hj : j % m = 0) (hjm : j + m ≤ n) : bufAdmits p (i + j) m = true := by
  obtain ⟨hn, hi, hin⟩ := (bufAdmits_iff p i n).1 h
  refine (bufAdmits_iff p (i + j) m).2 ⟨hm, ?_, by omega⟩
  obtain rfl | rfl | rfl := hm <;> obtain rfl | rfl | rfl := hn <;> omega

/-- A part of the bytes just written reads as that part of the value (R49). -/
theorem leNat_writeTarget (s : State) (v : Word) {i n j m : Nat} (hjm : j + m ≤ n) :
    leNat ((List.range m).map fun k => (s.writeTarget v (.inBuf i n)).ibufByte (i + j + k))
      = v.toNat / 2 ^ (8 * j) % 2 ^ (8 * m) := by
  rw [← leNat_bytes]
  congr 1
  refine List.map_congr_left fun k hk => ?_
  have hkm := List.mem_range.1 hk
  rw [ibufByte_writeTarget, if_pos (by omega), show i + j + k - i = j + k by omega]

/-- Settles O57: both accesses reach the window, and an aligned part of a write is itself an admitted read. -/
theorem inputWindowWriteReadsBack : Obligations.InputWindowWriteReadsBack := by
  intro s i n v hp hb hn hi hin
  have hadm := (bufAdmits_iff s.cfg i n).2 ⟨hn, hi, hin⟩
  refine ⟨⟨_, bus_read_in hp hb hadm, windowWord_bytes s.ibufByte i (by omega)⟩,
    _, bus_write_in hp hb hadm v, rfl, ibufByte_writeTarget s v i n, fun j m hm hj hjm => ?_⟩
  have hread := bus_read_in (s := s.writeTarget v (.inBuf i n)) hp hb (bufAdmits_part hadm hm hj hjm)
  rwa [leNat_writeTarget s v hjm, ← Nat.add_assoc] at hread

/-- Settles O58: both accesses reach the window, and a write to it is ignored. -/
theorem outputWindowIsReadOnly : Obligations.OutputWindowIsReadOnly := by
  intro s i n v hp hb hn hi hin
  have hadm := (bufAdmits_iff s.cfg i n).2 ⟨hn, hi, hin⟩
  exact ⟨bus_write_out hp hb hadm v, _, bus_read_out hp hb hadm, windowWord_bytes s.obufByte i (by omega)⟩

end Sys2Proof.Machine
end

section
/-! PROOFS. Operation words and their bytes (R49, R63, R65). -/

namespace Sys2Proof

/-- Every op code of R65 selects its own row of the table. -/
theorem decode_encode (i : Instr) : decode (encode i) = .ok i := by cases i <;> rfl

theorem decode_eq_ok_iff {w : Word} {i : Instr} : decode w = .ok i ↔ w = encode i :=
  ⟨decode_ok, fun h => h ▸ decode_encode i⟩

/-- Only the first four bytes of a string are decoded, as the word they hold (R49, R63). -/
theorem decodeBytes_eq_ok_iff {bytes rest : List Byte} {i : Instr} :
    decodeBytes bytes = .ok (i, rest) ↔ ∃ w, bytes = bytesOfWord w ++ rest ∧ decode w = .ok i := by
  constructor
  · intro h
    unfold decodeBytes at h
    split at h
    case h_2 => cases h
    case h_1 b0 b1 b2 b3 tail =>
      split at h
      case h_2 => cases h
      case h_1 j hj =>
        cases h
        exact ⟨wordOfBytes b0 b1 b2 b3, by rw [bytesOfWord_wordOfBytes]; rfl, hj⟩
  · rintro ⟨w, rfl, hw⟩
    simp only [bytesOfWord, List.cons_append, List.nil_append, decodeBytes, wordOfBytes_bytesOfWord, hw]

/-- Bytes decode to an operation exactly when they are its word and the rest (R63, R65). -/
theorem decodeBytes_eq_ok_iff_encodeBytes {bytes rest : List Byte} {i : Instr} :
    decodeBytes bytes = .ok (i, rest) ↔ bytes = encodeBytes i ++ rest := by
  simp only [decodeBytes_eq_ok_iff, decode_eq_ok_iff, exists_eq_right, encodeBytes]

/-- Settles O1: both ways of the equivalence, the first at the bytes of the word itself. -/
theorem opWordBytesRoundTrip : Obligations.OpWordBytesRoundTrip :=
  ⟨fun _ _ => decodeBytes_eq_ok_iff_encodeBytes.2 rfl, fun _ _ _ => decodeBytes_eq_ok_iff_encodeBytes.1⟩

/-- Settles O2: each row is the round trip of its operation with no byte after it. -/
theorem opCodesOfTheTable : Obligations.OpCodesOfTheTable :=
  have roundTrip (i : Instr) := opWordBytesRoundTrip.1 i []
  ⟨roundTrip .csum, roundTrip .encode, roundTrip .decode, roundTrip .parseUserS, roundTrip .parseDevinfo,
    roundTrip .tsDecodeInt, roundTrip .tsEncodeInt, roundTrip .tsDecodeHex⟩

end Sys2Proof
end

section
/-! PROOFS. A parse reads only the bytes its layout covers (R72, R73, R75, R110). -/

namespace Sys2Proof.Machine

variable {S T : List Byte} {a e : Nat}

/-! ### Two byte strings that agree on a range, and what is read inside it -/

/-- `S` and `T` have the same bytes from `a` on, before `e`. -/
def AgreeOn (S T : List Byte) (a e : Nat) : Prop := ∀ k, a ≤ k → k < e → byteAt S k = byteAt T k

theorem AgreeOn.le16 (h : AgreeOn S T a e) (o : Nat) (ha : a ≤ o := by omega) (he : o + 2 ≤ e := by omega) :
    Machine.le16 S o = Machine.le16 T o := by
  unfold Machine.le16
  rw [h o ha (by omega), h (o + 1) (by omega) (by omega)]

theorem AgreeOn.le32 (h : AgreeOn S T a e) (o : Nat) (ha : a ≤ o := by omega) (he : o + 4 ≤ e := by omega) :
    Machine.le32 S o = Machine.le32 T o := by
  unfold Machine.le32
  rw [h o ha (by omega), h (o + 1) (by omega) (by omega), h (o + 2) (by omega) (by omega), h (o + 3) (by omega) (by omega)]

theorem AgreeOn.decodeHex (h : AgreeOn S T a e) (o : Nat) (ha : a ≤ o := by omega) (he : o + 6 ≤ e := by omega) :
    Machine.decodeHex S o = Machine.decodeHex T o := by
  unfold Machine.decodeHex
  rw [h o ha (by omega), h (o + 1) (by omega) (by omega), h (o + 2) (by omega) (by omega), h (o + 3) (by omega) (by omega),
    h (o + 4) (by omega) (by omega), h (o + 5) (by omega) (by omega)]

/-- A text field is the same in strings of one length, since its range of bytes is (R12). -/
theorem AgreeOn.asciiz (h : AgreeOn S T a e) (hl : S.length = T.length) (b c : Nat) (ha : a ≤ b := by omega)
    (he : c ≤ e := by omega) : Machine.asciiz S b c = Machine.asciiz T b c := by
  unfold Machine.asciiz
  congr 1
  refine ext_byteAt _ _ (by simp [hl]) fun k hk => ?_
  have hk' : k < c - b := by simp at hk; omega
  rw [byteAt_take _ _ _ hk', byteAt_take _ _ _ hk', byteAt_drop, byteAt_drop]
  exact h (b + k) (by omega) (by omega)

/-! ### Each layout (R111 to R117), over the ranges that `Covers` names -/

section Layouts

variable {p : Params}

theorem layoutAttS_congr (h : ∀ k, Covers p .parseAttS k → byteAt S k = byteAt T k) : layoutAttS S = layoutAttS T := by
  have userid : AgreeOn S T 0 2 := fun k _ hk => h k (.inl hk)
  have time : AgreeOn S T 4 8 := fun k h1 h2 => h k (.inr ⟨h1, h2⟩)
  unfold layoutAttS
  rw [userid.le16 0, time.le32 4]

theorem layoutRtS_congr (h : ∀ k, Covers p .parseRtS k → byteAt S k = byteAt T k) : layoutRtS S = layoutRtS T := by
  have time : AgreeOn S T 12 18 := fun k h1 h2 => h k (.inr ⟨h1, h2⟩)
  unfold layoutRtS
  rw [h 8 (.inl rfl), time.decodeHex 12]

theorem layoutDevinfo_congr (h : ∀ k, Covers p .parseDevinfo k → byteAt S k = byteAt T k) :
    layoutDevinfo p S = layoutDevinfo p T := by
  have users : AgreeOn S T p.devOffUsers (p.devOffUsers + 4) := fun k h1 h2 => h k (.inl ⟨h1, h2⟩)
  have logs : AgreeOn S T p.devOffLogs (p.devOffLogs + 4) := fun k h1 h2 => h k (.inr (.inl ⟨h1, h2⟩))
  have cap : AgreeOn S T p.devOffCap (p.devOffCap + 4) := fun k h1 h2 => h k (.inr (.inr ⟨h1, h2⟩))
  unfold layoutDevinfo
  rw [users.le32 _, logs.le32 _, cap.le32 _]

variable (hl : S.length = T.length)
include hl

theorem layoutUserS_congr (h : ∀ k, Covers p .parseUserS k → byteAt S k = byteAt T k) : layoutUserS S = layoutUserS T := by
  have ids : AgreeOn S T 0 3 := fun k _ hk => h k (.inl hk)
  have name : AgreeOn S T 8 16 := fun k h1 h2 => h k (.inr (.inl ⟨h1, h2⟩))
  have userid : AgreeOn S T 24 28 := fun k h1 h2 => h k (.inr (.inr ⟨h1, h2⟩))
  unfold layoutUserS
  rw [ids.le16 0, ids 2 (by omega) (by omega), name.asciiz hl 8 16, userid.le32 24]

theorem layoutUserL_congr (h : ∀ k, Covers p .parseUserL k → byteAt S k = byteAt T k) : layoutUserL S = layoutUserL T := by
  have front : AgreeOn S T 0 39 := fun k _ hk => h k (.inl hk)
  have userid : AgreeOn S T 48 57 := fun k h1 h2 => h k (.inr ⟨h1, h2⟩)
  unfold layoutUserL
  rw [front.le16 0, front 2 (by omega) (by omega), front.asciiz hl 3 11, front.asciiz hl 11 35, front.le32 35,
    userid.asciiz hl 48 57]

theorem layoutAttL_congr (h : ∀ k, Covers p .parseAttL k → byteAt S k = byteAt T k) : layoutAttL S = layoutAttL T := by
  have ids : AgreeOn S T 0 11 := fun k _ hk => h k (.inl hk)
  have time : AgreeOn S T 27 31 := fun k h1 h2 => h k (.inr ⟨h1, h2⟩)
  unfold layoutAttL
  rw [ids.le16 0, ids.asciiz hl 2 11, time.le32 27]

theorem layoutRtL_congr (h : ∀ k, Covers p .parseRtL k → byteAt S k = byteAt T k) : layoutRtL S = layoutRtL T := by
  have userid : AgreeOn S T 16 25 := fun k h1 h2 => h k (.inl ⟨h1, h2⟩)
  have time : AgreeOn S T 42 48 := fun k h1 h2 => h k (.inr ⟨h1, h2⟩)
  unfold layoutRtL
  simp only [asciiz_drop, decodeHex_drop]
  rw [userid.asciiz hl (16 + 0) (16 + 9), time.decodeHex (16 + 26)]

end Layouts

/-! ### The operations over another `IBUF` -/

variable {s : State} {m : Memory}

/-- Slices of one length have the same byte where the buffers have; past the end both read 0 (log 13). -/
theorem byteAt_slice_congr {t : State} {k : Nat} (h : t.sliceByte k = s.sliceByte k) (hl : t.ilen = s.ilen) :
    byteAt t.slice k = byteAt s.slice k := by
  by_cases hk : k < s.ilen.toNat
  · rw [byteAt_slice t k (by rw [hl]; exact hk), byteAt_slice s k hk, h]
  · simp [byteAt, List.getD_eq_getElem?_getD, hl, Nat.le_of_not_lt hk]

theorem sliceInBounds_withIbuf : ({ s with ibuf := m }).sliceInBounds = s.sliceInBounds := rfl

theorem commitParse_withIbuf (p : Parsed) : ({ s with ibuf := m }).commitParse p = { s.commitParse p with ibuf := m } := by
  cases h : p.time with
  | none => rw [commitParse_none _ p h, commitParse_none s p h]
  | some ct => rw [commitParse_some _ p ct.1 ct.2 h, commitParse_some s p ct.1 ct.2 h]

theorem parse_withIbuf (w : Nat) {l : List Byte → Parsed} (h : l ({ s with ibuf := m }).slice = l s.slice) :
    ({ s with ibuf := m }).parse w l = { s.parse w l with ibuf := m } := by
  simp only [State.parse, h, commitParse_withIbuf, sliceInBounds_withIbuf]
  split_ifs <;> rfl

theorem execTsDecodeHex_withIbuf (h : decodeHex ({ s with ibuf := m }).slice 0 = decodeHex s.slice 0) :
    ∃ t, exec .tsDecodeHex s = .next t ∧ exec .tsDecodeHex { s with ibuf := m } = .next { t with ibuf := m } := by
  refine ⟨_, rfl, ?_⟩
  simp only [exec, execTsDecodeHex, h, sliceInBounds_withIbuf]
  split_ifs <;> rfl

/-- Settles O46: the eight operations see of the slice only what their layout, or `decode_hex`, reads of it. -/
theorem parseReadsOnlyCoveredBytes : Obligations.ParseReadsOnlyCoveredBytes := by
  intro i s m w _ hw _ hcov
  have hb (k : Nat) (hk : Covers s.cfg i k) : byteAt ({ s with ibuf := m }).slice k = byteAt s.slice k :=
    byteAt_slice_congr (hcov k hk) rfl
  have hl : ({ s with ibuf := m }).slice.length = s.slice.length := by rw [slice_length, slice_length]
  cases i
  case parseUserS => exact ⟨_, rfl, congrArg _ (parse_withIbuf _ (layoutUserS_congr hl hb))⟩
  case parseUserL => exact ⟨_, rfl, congrArg _ (parse_withIbuf _ (layoutUserL_congr hl hb))⟩
  case parseAttS => exact ⟨_, rfl, congrArg _ (parse_withIbuf _ (layoutAttS_congr hb))⟩
  case parseAttL => exact ⟨_, rfl, congrArg _ (parse_withIbuf _ (layoutAttL_congr hl hb))⟩
  case parseRtS => exact ⟨_, rfl, congrArg _ (parse_withIbuf _ (layoutRtS_congr hb))⟩
  case parseRtL => exact ⟨_, rfl, congrArg _ (parse_withIbuf _ (layoutRtL_congr hl hb))⟩
  case parseDevinfo => exact ⟨_, rfl, congrArg _ (parse_withIbuf _ (layoutDevinfo_congr hb))⟩
  case tsDecodeHex =>
    have time : AgreeOn ({ s with ibuf := m }).slice s.slice 0 6 := fun k _ hk => hb k hk
    exact execTsDecodeHex_withIbuf (time.decodeHex 0)
  all_goals cases hw

end Sys2Proof.Machine
end

section
/-! PROOFS. The host's turn at each statement (R10, R79). -/

namespace Sys2Proof.Machine

variable {s s1 : State} {st : Stmt}

/-! ### The host's turn, case by case -/

theorem hostTurn_pastEnd (h : s.host.prog[s.host.pos]? = none) : s.hostTurn = .next s := by
  unfold State.hostTurn; rw [h]

theorem hostTurn_bnz {x l : Nat} {mask : Word} (h : s.host.prog[s.host.pos]? = some (.bnz x mask l)) :
    s.hostTurn = s.branch x mask l := by
  unfold State.hostTurn; rw [h]

theorem hostTurn_perform (h : s.host.prog[s.host.pos]? = some st) (hst : ∀ x mask l, st ≠ .bnz x mask l) :
    s.hostTurn = s.perform st := by
  unfold State.hostTurn; rw [h]
  cases st
  case bnz x mask l => exact absurd rfl (hst x mask l)
  all_goals rfl

/-! ### A statement that makes an access -/

/-- The agent after one access: at the statement's next byte, or past it (R79). -/
theorem host_after (h : HostAgent) (st : Stmt) (v : Word) :
    h.after st v
      = { prog := h.prog
          pos := if h.sub + 1 < st.accesses then h.pos else h.pos + 1
          sub := if h.sub + 1 < st.accesses then h.sub + 1 else 0
          vars := st.store h.sub v h.vars } := by
  unfold HostAgent.after
  split_ifs <;> rfl

theorem HostAt.step_perform (h : HostAt s s1 st) (hst : ∀ x mask l, st ≠ .bnz x mask l) : step s = s1.perform st :=
  (step_host h.1).trans (hostTurn_perform h.2 hst)

/-- The step at a statement whose next access is `op` is that access; `vars` is met by what the statement stores. -/
theorem HostAt.stepAccesses {op : BusOp} {vars : Word → List (Nat × Value) → Prop} (h : HostAt s s1 st)
    (hop : st.access s1.cfg.base s1.host.sub = some op) (hvars : ∀ w, vars w (st.store s1.host.sub w s1.host.vars)) :
    StepAccesses s s1 op (if s1.host.sub + 1 < st.accesses then s1.host.pos else s1.host.pos + 1)
      (if s1.host.sub + 1 < st.accesses then s1.host.sub + 1 else 0) vars := by
  have hstep : step s = s1.perform st := h.step_perform (by rintro x mask l rfl; cases hop)
  unfold State.perform at hstep
  rw [hop] at hstep
  constructor
  · intro f hf
    simpa only [hf] using hstep
  · intro u w hu
    refine ⟨_, ?_, hvars w⟩
    simp only [hu, host_after] at hstep
    exact hstep

/-- A statement of one access is done after it, whatever byte the agent stood at. -/
theorem HostAt.stepAccesses_once {op : BusOp} {vars : Word → List (Nat × Value) → Prop} (h : HostAt s s1 st)
    (hone : st.accesses = 1) (hop : st.access s1.cfg.base s1.host.sub = some op)
    (hvars : ∀ w, vars w (st.store s1.host.sub w s1.host.vars)) : StepAccesses s s1 op (s1.host.pos + 1) 0 vars := by
  have hacc := h.stepAccesses hop hvars
  rwa [hone, if_neg (by omega), if_neg (by omega)] at hacc

theorem assigned_assocSet (x : Nat) (v : Value) (vars : List (Nat × Value)) : Assigned vars (assocSet x v vars) x v :=
  ⟨by rw [assocGet_assocSet, if_pos rfl], fun y hy => by rw [assocGet_assocSet, if_neg hy]⟩

theorem bytesSoFar_eq {sub : Nat} {old : Option Value} {bs : List Byte}
    (h : sub = 0 ∧ bs = [] ∨ 0 < sub ∧ old = some (.bytes bs)) : bytesSoFar sub old = bs := by
  obtain ⟨rfl, rfl⟩ | ⟨hpos, rfl⟩ := h
  · rfl
  · obtain ⟨k, rfl⟩ := Nat.exists_eq_succ_of_ne_zero hpos.ne'
    rfl

/-! ### A statement that makes no access -/

theorem HostAt.step_noAccess (h : HostAt s s1 st) (hst : ∀ x mask l, st ≠ .bnz x mask l)
    (hop : st.access s1.cfg.base s1.host.sub = none) :
    step s = .next { s1 with
      host := { prog := s1.host.prog, pos := s1.host.pos + 1, sub := 0, vars := st.storeNone s1.host.vars } } := by
  rw [h.step_perform hst, State.perform, hop]; rfl

/-! ### `bnz` -/

theorem Masks.value_eq {a : HostAgent} {x : Nat} {w : Word} (h : Masks a.vars x w) : a.value x = w := by
  unfold HostAgent.value
  obtain h | ⟨bs, h, rfl⟩ | ⟨h, rfl⟩ := h <;> rw [h]

/-- A label stands where it first does (log 8). -/
theorem labelPos_eq_some {a : HostAgent} {l p : Nat} (hp : a.prog[p]? = some (.label l))
    (hfirst : ∀ q : Nat, q < p → a.prog[q]? ≠ some (.label l)) : a.labelPos l = some p := by
  obtain ⟨hlen, hat⟩ := List.getElem?_eq_some_iff.1 hp
  refine List.findIdx?_eq_some_iff_getElem.2 ⟨hlen, by simp [hat], fun q hq => ?_⟩
  have hne := hfirst q hq
  rw [List.getElem?_eq_getElem (by omega)] at hne
  simpa using hne

theorem labelPos_eq_none {a : HostAgent} {l : Nat} (h : ∀ p : Nat, a.prog[p]? ≠ some (.label l)) : a.labelPos l = none := by
  refine List.findIdx?_eq_none_iff.2 fun st hst => ?_
  obtain ⟨p, hp⟩ := List.mem_iff_getElem?.1 hst
  have hne := h p
  rw [hp] at hne
  simpa using hne

section Branch

variable {x l : Nat} {mask w : Word} (h : HostAt s s1 (.bnz x mask l)) (hw : Masks s1.host.vars x w)
include h hw

theorem step_branch_notTaken (hz : w &&& mask = 0) :
    step s = .next { s1 with host := { s1.host with pos := s1.host.pos + 1, sub := 0 } } := by
  rw [step_host h.1, hostTurn_bnz h.2, State.branch, hw.value_eq, if_pos hz]; rfl

theorem step_branch_taken (hnz : w &&& mask ≠ 0) {p : Nat} (hp : s1.host.labelPos l = some p) :
    step s = .next { s1 with host := { s1.host with pos := p, sub := 0 } } := by
  rw [step_host h.1, hostTurn_bnz h.2, State.branch, hw.value_eq, if_neg hnz, hp]; rfl

theorem step_branch_undefinedLabel (hnz : w &&& mask ≠ 0) (hp : s1.host.labelPos l = none) :
    step s = .refused (.undefinedLabel l) := by
  rw [step_host h.1, hostTurn_bnz h.2, State.branch, hw.value_eq, if_neg hnz, hp]

end Branch

/-! ### `rdb` -/

/-- Either `rdb`, at a byte it still has to read, appends that byte to those read so far. -/
theorem step_rdb {i n x win : Nat}
    (h : (HostAt s s1 (.rdbIn i n x) ∧ win = 0x10000) ∨ (HostAt s s1 (.rdbOut i n x) ∧ win = 0x20000))
    (hsub : s1.host.sub < n) {bs : List Byte}
    (hbs : s1.host.sub = 0 ∧ bs = [] ∨ 0 < s1.host.sub ∧ assocGet x s1.host.vars = some (.bytes bs)) :
    StepAccesses s s1 (.read (s1.cfg.base + win + i + s1.host.sub) 1)
      (if s1.host.sub + 1 < n then s1.host.pos else s1.host.pos + 1) (if s1.host.sub + 1 < n then s1.host.sub + 1 else 0)
      fun w new => Assigned s1.host.vars new x (.bytes (bs ++ [w.setWidth 8])) := by
  have hvars (w : Word) : Assigned s1.host.vars
      (assocSet x (.bytes (bytesSoFar s1.host.sub (assocGet x s1.host.vars) ++ [w.setWidth 8])) s1.host.vars) x
      (.bytes (bs ++ [w.setWidth 8])) := by
    rw [bytesSoFar_eq hbs]; exact assigned_assocSet x _ _
  obtain ⟨h, rfl⟩ | ⟨h, rfl⟩ := h
  · exact h.stepAccesses (if_pos hsub) hvars
  · exact h.stepAccesses (if_pos hsub) hvars

/-- An `rdb` of no bytes gives the empty string. -/
theorem step_rdb_empty {i x : Nat} (h : HostAt s s1 (.rdbIn i 0 x) ∨ HostAt s s1 (.rdbOut i 0 x)) :
    ∃ new, step s = .next { s1 with host := { prog := s1.host.prog, pos := s1.host.pos + 1, sub := 0, vars := new } }
      ∧ Assigned s1.host.vars new x (.bytes []) := by
  refine ⟨_, ?_, assigned_assocSet x _ _⟩
  obtain h | h := h
  · exact h.step_noAccess nofun rfl
  · exact h.step_noAccess nofun rfl

/-- Settles O60: each statement that makes an access is `HostAt.stepAccesses` with its own access and its own variables. -/
theorem stepServesRegisterStatements : Obligations.StepServesRegisterStatements := by
  intro s s1
  refine ⟨fun r v h => h.stepAccesses_once rfl rfl fun _ => rfl,
    fun r x h => h.stepAccesses_once rfl rfl fun _ => assigned_assocSet x _ _,
    fun addr n v h => h.stepAccesses_once rfl rfl fun _ => rfl,
    fun addr n x h => h.stepAccesses_once rfl rfl fun _ => assigned_assocSet x _ _,
    fun i bs b h hb => h.stepAccesses (by rw [Stmt.access, hb]; rfl) fun _ => rfl,
    fun i n x win h hsub bs hbs => step_rdb h hsub hbs,
    fun i x h => step_rdb_empty h, ?_,
    fun x mask l w h hw => ⟨step_branch_notTaken h hw, fun hnz =>
      ⟨fun p hp hfirst => step_branch_taken h hw hnz (labelPos_eq_some hp hfirst),
        fun hnone => step_branch_undefinedLabel h hw hnz (labelPos_eq_none hnone)⟩⟩,
    fun h hend => (step_host h).trans (hostTurn_pastEnd hend)⟩
  rintro st h (⟨l, rfl⟩ | ⟨i, rfl⟩)
  · exact h.step_noAccess nofun rfl
  · exact h.step_noAccess nofun rfl

end Sys2Proof.Machine
end

section
/-! PROOFS. The checksum as a sum of words, and CSUM (R84 to R88). -/

namespace Sys2Proof.Machine

/-- R86 in closed form. -/
theorem checksum_eq (B : List Byte) : checksum B = 65534 - wordTotal B % 65535 := by
  have h : wordSum B 0 % 65535 = wordTotal B % 65535 := by rw [wordSum_mod, Nat.zero_add]
  unfold checksum
  omega

/-- Settles O17: the running sum is the word sum modulo 65535. -/
theorem checksumIsTheWordSum : Obligations.ChecksumIsTheWordSum :=
  ⟨fun B => ⟨checksum_eq B, checksum_le B⟩, rfl⟩

/-- Settles O18: the field is a word of its own, so it adds the checksum to the sum it was taken from. -/
theorem checksumCheckIdentity : Obligations.ChecksumCheckIdentity := by
  intro a b lo hi rest h
  rw [checksum_eq, wordTotal_cons, wordTotal_cons] at h
  rw [wordTotal_cons, wordTotal_cons, h]
  simp only [BitVec.ofNat_eq_ofNat, BitVec.toNat_ofNat, Nat.zero_mod]
  omega

/-- Words are paired from the first byte, so a prefix of whole words adds its own sum (R84). -/
theorem wordTotal_append : ∀ (A B : List Byte), A.length % 2 = 0 → wordTotal (A ++ B) = wordTotal A + wordTotal B
  | [], B, _ => by rw [List.nil_append, wordTotal_nil, Nat.zero_add]
  | [_], _, h => by simp at h
  | a :: b :: A, B, h => by
    have ih := wordTotal_append A B (by simpa [Nat.add_assoc] using h)
    rw [List.cons_append, List.cons_append, wordTotal_cons, wordTotal_cons, ih]; omega

/-- Settles O19: both orders have the same word sum. -/
theorem checksumIgnoresWordOrder : Obligations.ChecksumIgnoresWordOrder := by
  intro a b c d before between after hbefore hbetween
  simp only [checksum_eq, List.append_assoc, List.cons_append, List.nil_append, wordTotal_append _ _ hbefore,
    wordTotal_append _ _ hbetween, wordTotal_cons]
  omega

/-- Settles O20: a slice that fits leaves CSUM only its success. -/
theorem csumGivesChecksumOfSlice : Obligations.CsumGivesChecksumOfSlice := by
  intro s hfit
  obtain ⟨t, ht⟩ := exec_answers .csum s
  obtain ⟨hn, -⟩ | ⟨-, rfl⟩ := execCsum_cases ht
  · exact absurd hfit hn
  · have hle := checksum_le s.slice
    refine ⟨_, ht, ⟨rfl, rfl⟩, ?_⟩
    rw [finish_result, setResult_result, BitVec.toNat_ofNat, Nat.mod_eq_of_lt (by omega), checksum_eq]

end Sys2Proof.Machine
end

section
/-! PROOFS. What a successful ENCODE writes (R89 to R92). -/

namespace Sys2Proof.Machine

variable {s t : State}

/-! ### When ENCODE succeeds -/

theorem exec_encode_of_fits (hs : s.SliceFits) (hf : s.FrameFits) : exec .encode s = .next s.encoded := by
  obtain ⟨t, ht⟩ := exec_answers .encode s
  obtain ⟨h, -⟩ | ⟨-, h, -⟩ | ⟨-, -, rfl⟩ := execEncode_cases ht
  · exact absurd hs h
  · exact absurd hf h
  · exact ht

theorem eq_encoded_of_err_ok (h : exec .encode s = .next t) (hok : t.status.err = .ok) :
    s.SliceFits ∧ s.FrameFits ∧ t = s.encoded := by
  obtain ⟨-, rfl⟩ | ⟨-, -, rfl⟩ | h := execEncode_cases h
  · cases hok
  · cases hok
  · exact h

/-! ### The registers it writes -/

/-- An admitted output is at most 65536 bytes, so its length fits `OLEN` (R6, R91). -/
theorem State.FrameFits.length_le (hf : s.FrameFits) (hp : s.cfg.legal = true) :
    frameAt s.ctrl.stream + 8 + s.ilen.toNat ≤ 65536 := by
  have hb : s.cfg.bufBytes ≤ 65536 := by simp [Params.legal] at hp; omega
  have hl := encodeOutput_length_le hf
  rw [encodeOutput_length, slice_length] at hl
  omega

/-- An admitted inner length is a u16 (R91). -/
theorem State.FrameFits.inner_lt (hf : s.FrameFits) (hs : s.ctrl.stream = true) : 8 + s.ilen.toNat < 65536 := by
  rw [State.FrameFits, if_pos hs] at hf
  omega

theorem toNat_encoded_olen (hf : s.FrameFits) (hp : s.cfg.legal = true) :
    s.encoded.olen.toNat = frameAt s.ctrl.stream + 8 + s.ilen.toNat := by
  have hl := hf.length_le hp
  have e : s.encoded.olen = BitVec.ofNat 32 (encodeOutput s.ctrl.stream s.hdr s.slice).length := rfl
  rw [e, encodeOutput_length, slice_length, BitVec.toNat_ofNat, Nat.mod_eq_of_lt (by omega)]

theorem toNat_encoded_csum (s : State) : s.encoded.hdr.csum.toNat = s.sentChecksum := by
  have hle : s.sentChecksum ≤ 65534 := checksum_le _
  have e : s.encoded.hdr.csum = BitVec.ofNat 16 (encodeChecksum s.hdr s.slice) := rfl
  rw [e, encodeChecksum_eq, BitVec.toNat_ofNat, Nat.mod_eq_of_lt (by omega)]

theorem encoded_result (s : State) : s.encoded.result = s.encoded.hdr.csum.setWidth 32 := rfl

theorem toNat_encoded_envLen (hf : s.FrameFits) :
    s.encoded.envLen.toNat = if s.ctrl.stream then 8 + s.ilen.toNat else 0 := by
  have e : s.encoded.envLen = encodeEnvLen s.ctrl.stream s.slice := rfl
  rw [e, encodeEnvLen, slice_length]
  split
  · next hs => rw [BitVec.toNat_ofNat, Nat.mod_eq_of_lt (hf.inner_lt hs)]
  · rfl

/-! ### The bytes it stores -/

theorem encoded_outByte_of_lt {k : Nat} (hk : k < frameAt s.ctrl.stream + 8 + s.ilen.toNat) :
    s.encoded.outByte k = byteAt (encodeOutput s.ctrl.stream s.hdr s.slice) k := by
  rw [encoded_outByte, if_pos hk]

theorem encoded_u16At {k : Nat} (hk : k + 1 < frameAt s.ctrl.stream + 8 + s.ilen.toNat) :
    u16At s.encoded.outByte k = le16 (encodeOutput s.ctrl.stream s.hdr s.slice) k := by
  rw [u16At, encoded_outByte_of_lt (by omega), encoded_outByte_of_lt hk, le16]

/-- The header in `OBUF` (R67). -/
theorem encoded_header (s : State) :
    u16At s.encoded.outByte (frameAt s.ctrl.stream) = s.hdr.cmd.toNat
      ∧ u16At s.encoded.outByte (frameAt s.ctrl.stream + 2) = s.sentChecksum
      ∧ u16At s.encoded.outByte (frameAt s.ctrl.stream + 4) = s.hdr.sid.toNat
      ∧ u16At s.encoded.outByte (frameAt s.ctrl.stream + 6) = s.hdr.rid.toNat := by
  rw [encoded_u16At (by omega), encoded_u16At (by omega), encoded_u16At (by omega), encoded_u16At (by omega),
    ← encodeChecksum_eq]
  exact le16_encodeOutput s.ctrl.stream s.hdr s.slice

/-- The envelope in `OBUF` (R69). -/
theorem encoded_envelope (hf : s.FrameFits) (hs : s.ctrl.stream = true) :
    s.encoded.outByte 0 = 0x50 ∧ s.encoded.outByte 1 = 0x50 ∧ s.encoded.outByte 2 = 0x82 ∧ s.encoded.outByte 3 = 0x7D
      ∧ u16At s.encoded.outByte 4 = 8 + s.ilen.toNat ∧ s.encoded.outByte 6 = 0 ∧ s.encoded.outByte 7 = 0 := by
  have hb : ∀ k, k < 8 → s.encoded.outByte k = byteAt (encodeOutput true s.hdr s.slice) k := fun k hk => by
    rw [encoded_outByte_of_lt (by omega), hs]
  obtain ⟨h0, h1, h2, h3, h6, h7, hlen⟩ := encodeOutput_envelope s.hdr s.slice
  rw [slice_length] at hlen
  rw [encoded_u16At (by omega), hb 0 (by omega), hb 1 (by omega), hb 2 (by omega), hb 3 (by omega), hb 6 (by omega),
    hb 7 (by omega), hs]
  exact ⟨h0, h1, h2, h3, hlen (hf.inner_lt hs), h6, h7⟩

theorem encoded_payload {k : Nat} (hk : k < s.ilen.toNat) :
    s.encoded.outByte (frameAt s.ctrl.stream + 8 + k) = s.sliceByte k := by
  rw [encoded_outByte_of_lt (by omega), byteAt_encodeOutput_payload, byteAt_slice s k hk]

/-- Settles O21: the output is the envelope, the header and the payload, and it is stored from `OBUF[0]` on. -/
theorem encodeBuildsFrame : Obligations.EncodeBuildsFrame := by
  intro s hp hs hf
  obtain ⟨hcmd, hcsum, hsid, hrid⟩ := encoded_header s
  have hresult : s.encoded.result.toNat = s.sentChecksum := by
    rw [encoded_result, toNat_zeroExtend_half, toNat_encoded_csum]
  exact ⟨s.encoded, exec_encode_of_fits hs hf, ⟨rfl, rfl⟩, toNat_encoded_olen hf hp, encoded_envelope hf, hcmd, hcsum, hsid,
    hrid, fun _ hk => encoded_payload hk, toNat_encoded_csum s, hresult, toNat_encoded_envLen hf⟩

/-! ### The laws of R92 -/

/-- The state with the transport chosen: stream or datagram (R20). -/
def State.withStream (s : State) (stream : Bool) : State := { s with ctrl := { s.ctrl with stream := stream } }

/-- A datagram frame fits wherever the stream frame of the same payload does (R91). -/
theorem State.FrameFits.datagram (hf : (s.withStream true).FrameFits) : (s.withStream false).FrameFits := by
  simp only [State.FrameFits, State.withStream, if_true, Bool.false_eq_true, if_false] at hf ⊢
  omega

/-- Behind the envelope stands the datagram output (R92 (c)). -/
theorem encoded_stream_outByte {k : Nat} (hk : k < 8 + s.ilen.toNat) :
    (s.withStream true).encoded.outByte (8 + k) = (s.withStream false).encoded.outByte k :=
  calc
    _ = byteAt (encodeOutput true s.hdr s.slice) (8 + k) :=
      encoded_outByte_of_lt (s := s.withStream true) (show 8 + k < 8 + 8 + s.ilen.toNat by omega)
    _ = byteAt (encodeOutput false s.hdr s.slice) k := byteAt_encodeOutput true s.hdr s.slice k
    _ = _ := (encoded_outByte_of_lt (s := s.withStream false) (show k < 0 + 8 + s.ilen.toNat by omega)).symm

/-- Settles O24: both outputs hold the same frame, behind the envelope and at 0. -/
theorem envelopeStripsToDatagram : Obligations.EnvelopeStripsToDatagram := by
  intro s t u hp (ht : exec .encode (s.withStream true) = .next t) (hu : exec .encode (s.withStream false) = .next u)
  refine ⟨fun hok => ?_, fun hok => ?_, fun hok => ?_⟩
  · obtain ⟨-, hf, rfl⟩ := eq_encoded_of_err_ok ht hok
    obtain ⟨-, -, -, -, hinner, -⟩ := encoded_envelope hf rfl
    obtain ⟨-, hcsum, -⟩ := encoded_header (s.withStream true)
    have henv : (s.withStream true).encoded.envLen.toNat = 8 + s.ilen.toNat := toNat_encoded_envLen hf
    exact ⟨hinner.trans henv.symm, henv, hcsum.trans (toNat_encoded_csum _).symm⟩
  · obtain ⟨-, -, rfl⟩ := eq_encoded_of_err_ok hu hok
    obtain ⟨-, hcsum, -⟩ := encoded_header (s.withStream false)
    exact hcsum.trans (toNat_encoded_csum _).symm
  · obtain ⟨hs, hf, rfl⟩ := eq_encoded_of_err_ok ht hok
    obtain rfl := Host.Outcome.next.inj ((exec_encode_of_fits (s := s.withStream false) hs hf.datagram).symm.trans hu)
    have hlt : (s.withStream true).encoded.olen.toNat = 8 + 8 + s.ilen.toNat := toNat_encoded_olen hf hp
    have hlu : (s.withStream false).encoded.olen.toNat = 0 + 8 + s.ilen.toNat := toNat_encoded_olen hf.datagram hp
    exact ⟨rfl, by omega, fun k hk => encoded_stream_outByte (by omega)⟩

end Sys2Proof.Machine
end

section
/-! PROOFS. What a successful DECODE writes (R93 to R95). -/

namespace Sys2Proof.Machine

variable {s : State} {env : Bool}

/-- The state after a successful DECODE (R93). -/
def State.decoded (s : State) : State :=
  ((s.noteMismatch s.frameView.flags.csumMismatch).commitDecode s.frameView).completeOk s.frameView.flags

/-- A slice that fits, is long enough and, in strict mode, mismatches in nothing is decoded (R93). -/
theorem exec_decode_of_fits (hs : s.SliceFits) (henv : env = true ↔ s.EnvFound) (hl : frameAt env + 8 ≤ s.ilen.toNat)
    (hok : s.ctrl.strict = true → s.frameView.flags.lenMismatch = false ∧ s.frameView.flags.csumMismatch = false) :
    exec .decode s = .next s.decoded := by
  have hlong : frameTooShort (hasEnvelope s.ctrl.stream s.slice) s.slice ≠ true := by
    rw [hasEnvelope_eq env henv, Ne, frameTooShort_iff]; omega
  obtain ⟨t, ht⟩ := exec_answers .decode s
  obtain ⟨h, -⟩ | ⟨-, h, -⟩ | ⟨-, -, hstrict, h, -⟩ | ⟨-, -, hstrict, -, h, -⟩ | ⟨-, -, -, rfl⟩ := execDecode_cases ht
  · exact absurd hs h
  · exact absurd h hlong
  · exact absurd ((hok hstrict).1.symm.trans h) Bool.false_ne_true
  · exact absurd ((hok hstrict).2.symm.trans h) Bool.false_ne_true
  · exact ht

theorem frameView_eq (henv : env = true ↔ s.EnvFound) : s.frameView = viewFrame env s.slice := by
  rw [State.frameView, hasEnvelope_eq env henv]

theorem decoded_outByte {k : Nat} (hk : k < s.frameView.payload.length) :
    s.decoded.outByte k = byteAt s.frameView.payload k :=
  (outByte_writeBytes s s.frameView.payload k).trans (if_pos hk)

theorem toNat_decoded_olen (henv : env = true ↔ s.EnvFound) : s.decoded.olen.toNat = s.ilen.toNat - (frameAt env + 8) := by
  have hlt := s.ilen.isLt
  have e : s.decoded.olen = BitVec.ofNat 32 s.frameView.payload.length := rfl
  rw [e, frameView_payload_length s henv, BitVec.toNat_ofNat, Nat.mod_eq_of_lt (by omega)]

theorem decoded_payload (henv : env = true ↔ s.EnvFound) {k : Nat} (hk : k < s.ilen.toNat - (frameAt env + 8)) :
    s.decoded.outByte k = s.sliceByte (frameAt env + 8 + k) := by
  rw [decoded_outByte (by rw [frameView_payload_length s henv]; exact hk), frameView_eq henv, viewFrame_payload, byteAt_drop,
    byteAt_slice s _ (by omega)]

/-- Settles O25: DECODE writes what it reads out of the frame. -/
theorem decodeTakesFrameApart : Obligations.DecodeTakesFrameApart := by
  intro s env henv hs hl hok
  have hflags : s.frameView.flags = s.frameFlags env := by rw [frameView_eq henv, viewFrame_flags env hl]
  have hresult : s.decoded.result.toNat = s.frameView.computed.toNat := toNat_zeroExtend_half _
  obtain ⟨hcmd, hcsum, hsid, hrid, hlen, hcomputed⟩ := viewFrame_fields (s := s) env hl
  rw [← frameView_eq henv] at hcmd hcsum hsid hrid hlen hcomputed
  rw [← hflags] at hok ⊢
  exact ⟨s.decoded, exec_decode_of_fits hs henv hl hok, rfl, rfl, hcmd, hcsum, hsid, hrid, toNat_decoded_olen henv,
    fun _ hk => decoded_payload henv hk, hlen, hresult.trans hcomputed⟩

end Sys2Proof.Machine
end

section
/-! PROOFS. The round trip: DECODE takes apart what ENCODE built (R96). -/

namespace Sys2Proof.Machine

/-- The envelope is found in an output exactly when ENCODE put it there. -/
theorem hasEnvelope_encodeOutput (stream : Bool) (h : Header) (p : List Byte) :
    hasEnvelope stream (encodeOutput stream h p) = stream := by
  cases stream with
  | false => rfl
  | true =>
    have htake : (encodeOutput true h p).take 4 = magic := rfl
    have hlen : 4 ≤ (encodeOutput true h p).length := by rw [encodeOutput_length]; omega
    simp [hasEnvelope, htake, hlen]

/-- The header fields at the front of a frame (R67). -/
theorem le16_headerBytes_append (h : Header) (p : List Byte) :
    le16 (headerBytes h ++ p) 0 = h.cmd.toNat ∧ le16 (headerBytes h ++ p) 2 = h.csum.toNat
      ∧ le16 (headerBytes h ++ p) 4 = h.sid.toNat ∧ le16 (headerBytes h ++ p) 6 = h.rid.toNat :=
  headerBytes_fields h

/-- What DECODE reads out of an output: the header ENCODE sent, the payload, the same checksum, and no mismatch (R94). -/
theorem viewFrame_encodeOutput (stream : Bool) (h : Header) (p : List Byte) (hp : stream = true → 8 + p.length < 65536) :
    viewFrame stream (encodeOutput stream h p) =
      { flags := { DecodeFlags.clear with envPresent := stream }
        hdr := { h with csum := BitVec.ofNat 16 (encodeChecksum h p) }
        payload := p
        envLen := encodeEnvLen stream p
        computed := BitVec.ofNat 16 (encodeChecksum h p) } := by
  have hle : encodeChecksum h p ≤ 65534 := checksum_le _
  have hc : checksum (headerBytes { h with csum := 0 } ++ p) = encodeChecksum h p := rfl
  have hfield : (BitVec.ofNat 16 (encodeChecksum h p)).toNat = encodeChecksum h p := Nat.mod_eq_of_lt (by omega)
  have hpayload : ∀ H : Header, (headerBytes H ++ p).drop 8 = p := fun _ => rfl
  obtain ⟨hcmd, hcsum, hsid, hrid⟩ := le16_headerBytes_append { h with csum := BitVec.ofNat 16 (encodeChecksum h p) } p
  simp only [viewFrame, viewFrame_frame, drop_encodeOutput, zeroChecksumField_header, hc, hcmd, hcsum, hsid, hrid, hfield,
    hpayload, BitVec.ofNat_toNat, BitVec.setWidth_eq]
  cases stream with
  | false => simp [DecodeFlags.clear, encodeEnvLen]
  | true =>
    obtain ⟨-, -, -, -, h6, h7, hlen⟩ := encodeOutput_envelope h p
    have hl : (encodeOutput true h p).length - 8 = 8 + p.length := by rw [encodeOutput_length, frameAt, if_pos rfl]; omega
    simp [DecodeFlags.clear, encodeEnvLen, h6, h7, hlen (hp rfl), hl]

theorem slice_eq_of_bytes {u : State} {B : List Byte} (hl : u.ilen.toNat = B.length)
    (hb : ∀ k, k < B.length → u.sliceByte k = byteAt B k) : u.slice = B := by
  refine ext_byteAt _ _ (by rw [slice_length, hl]) fun k hk => ?_
  rw [slice_length] at hk
  rw [byteAt_slice u k hk, hb k (by omega)]

section Copied

variable {s u : State} (hp : s.cfg.legal = true) (hf : s.FrameFits) (hstream : u.ctrl.stream = s.ctrl.stream)
  (hilen : u.ilen = s.encoded.olen) (hbytes : ∀ k, k < s.encoded.olen.toNat → u.sliceByte k = s.encoded.outByte k)
include hp hf hilen hbytes

/-- A slice that holds the bytes of `OBUF` up to `OLEN` is the encoder's output. -/
theorem slice_eq_encodeOutput : u.slice = encodeOutput s.ctrl.stream s.hdr s.slice := by
  have hl : (encodeOutput s.ctrl.stream s.hdr s.slice).length = s.encoded.olen.toNat := by
    rw [encodeOutput_length, slice_length, toNat_encoded_olen hf hp]
  refine slice_eq_of_bytes (by rw [hilen, hl]) fun k hk => ?_
  rw [hl] at hk
  rw [hbytes k hk, encoded_outByte_of_lt (by rwa [toNat_encoded_olen hf hp] at hk)]

include hstream

theorem envFound_of_encoded : s.ctrl.stream = true ↔ u.EnvFound := by
  rw [← hasEnvelope_iff, slice_eq_encodeOutput hp hf hilen hbytes, hstream, hasEnvelope_encodeOutput]

/-- DECODE reads the encoder's header, checksum, inner length and payload back out of such a slice. -/
theorem frameView_of_encoded :
    u.frameView =
      { flags := { DecodeFlags.clear with envPresent := s.ctrl.stream }
        hdr := s.encoded.hdr
        payload := s.slice
        envLen := s.encoded.envLen
        computed := s.encoded.hdr.csum } := by
  rw [frameView_eq (envFound_of_encoded hp hf hstream hilen hbytes), slice_eq_encodeOutput hp hf hilen hbytes]
  exact viewFrame_encodeOutput _ _ _ fun hs => by rw [slice_length]; exact hf.inner_lt hs

end Copied

/-- Settles O29: the slice is the encoder's output, and `viewFrame` reads out of that what ENCODE put in. -/
theorem decodeUndoesEncode : Obligations.DecodeUndoesEncode := by
  intro s t u hp ht hok hstream hfit hilen hbytes
  obtain ⟨-, hf, rfl⟩ := eq_encoded_of_err_ok ht hok
  have henv := envFound_of_encoded hp hf hstream hilen hbytes
  have hview := frameView_of_encoded hp hf hstream hilen hbytes
  have hl : frameAt s.ctrl.stream + 8 ≤ u.ilen.toNat := by rw [hilen, toNat_encoded_olen hf hp]; omega
  have hflags : u.decoded.status.flags = { DecodeFlags.clear with envPresent := s.ctrl.stream } :=
    congrArg FrameView.flags hview
  have hhdr : u.decoded.hdr = s.encoded.hdr := congrArg FrameView.hdr hview
  have hresult : u.decoded.result = s.encoded.result := congrArg (fun v => v.computed.setWidth 32) hview
  have hpayload : u.frameView.payload = s.slice := congrArg FrameView.payload hview
  have holen : u.decoded.olen = BitVec.ofNat 32 s.slice.length :=
    congrArg (fun p : List Byte => BitVec.ofNat 32 p.length) hpayload
  refine ⟨u.decoded, exec_decode_of_fits hfit henv hl fun _ => ?_, rfl, hflags, hhdr, ?_, hresult, ?_, fun k hk => ?_⟩
  · rw [hview]; exact ⟨rfl, rfl⟩
  · rw [hresult, hhdr, encoded_result]
  · rw [holen, slice_length, BitVec.ofNat_toNat, BitVec.setWidth_eq]
  · rw [decoded_outByte (by rwa [hpayload, slice_length]), hpayload, byteAt_slice s k hk]

end Sys2Proof.Machine
end

section
/-! PROOFS. The timestamp operations, and that the two integer forms undo each other (R99 to R105). -/

namespace Sys2Proof.Machine

/-! ### The integer form on exact integers (R99, R101) -/

/-- The ranges of R105 (b), in which a time has one integer form. -/
structure Civil.Canonical (c : Civil) : Prop where
  year : 2000 ≤ c.year
  month : 1 ≤ c.month ∧ c.month ≤ 12
  day : 1 ≤ c.day ∧ c.day ≤ 31
  hour : 0 ≤ c.hour ∧ c.hour ≤ 23
  minute : 0 ≤ c.minute ∧ c.minute ≤ 59
  second : 0 ≤ c.second ∧ c.second ≤ 59

theorem encodeInt_decodeInt (v : Nat) : encodeInt (decodeInt v) = v := by
  simp only [encodeInt, decodeInt]
  omega

/-- Mixed-radix digits in their ranges are found again by successive division. -/
theorem decodeInt_encodeInt {c : Civil} (hc : c.Canonical) : decodeInt (encodeInt c).toNat = c := by
  obtain ⟨hyear, ⟨hmonth, hmonth'⟩, ⟨hday, hday'⟩, ⟨hhour, hhour'⟩, ⟨hminute, hminute'⟩, ⟨hsecond, hsecond'⟩⟩ := hc
  obtain ⟨year, month, day, hour, minute, second⟩ := c
  simp only [encodeInt, decodeInt, Civil.mk.injEq] at *
  omega

theorem encodeInt_succ_month (c : Civil) : encodeInt { c with month := c.month + 1 } = encodeInt c + 2678400 := by
  simp only [encodeInt]
  omega

/-! ### The bank as signed registers (R31, R102) -/

theorem Timestamp.bank_civil (T : Timestamp) : T.civil.bank = T := by
  simp only [Timestamp.civil, Civil.bank, BitVec.ofInt_toInt]

/-- The fields of an integer time are small, so their signed reading is exact (R99). -/
theorem civil_bank_decodeInt {v : Nat} (hv : v < 4294967296) : (decodeInt v).bank.civil = decodeInt v := by
  simp only [Timestamp.civil, Civil.bank, decodeInt, BitVec.toInt_ofInt, Civil.mk.injEq]
  refine ⟨?_, ?_, ?_, ?_, ?_, ?_⟩ <;> apply Int.bmod_eq_of_le <;> omega

theorem toInt_succ (w : Word) (hw : w.toInt < 2147483647) : (w + 1).toInt = w.toInt + 1 := by
  have hle := BitVec.le_toInt w
  have hone : (1 : Word).toInt = 1 := rfl
  rw [BitVec.toInt_add, hone]
  exact Int.bmod_eq_of_le (by omega) (by omega)

theorem toNat_ofNat_of_word {r : Int} (h0 : 0 ≤ r) (h1 : r < 2 ^ 32) : ((BitVec.ofNat 32 r.toNat).toNat : Int) = r := by
  rw [BitVec.toNat_ofNat]
  omega

/-! ### How the three operations end -/

variable {s t : State}

theorem exec_tsDecodeInt (s : State) :
    exec .tsDecodeInt s = .next ((s.setTime (decodeInt s.arg.toNat) .oneIndexed).finish .ok .clear) := rfl

theorem ts_of_tsDecodeInt (h : exec .tsDecodeInt s = .next t) : t.ts = (decodeInt s.arg.toNat).bank := by
  rw [exec_tsDecodeInt] at h
  injection h with h
  rw [← h, finish_ts, setTime_ts]

theorem exec_tsDecodeHex_of_fits (hs : s.SliceFits) (hl : 6 ≤ s.ilen.toNat) :
    exec .tsDecodeHex s = .next ((s.setTime (decodeHex s.slice 0) .zeroIndexed).finish .ok .clear) := by
  obtain ⟨t, ht⟩ := exec_answers .tsDecodeHex s
  obtain ⟨h, -⟩ | ⟨-, h, -⟩ | ⟨-, -, rfl⟩ := execTsDecodeHex_cases ht
  · exact absurd hs h
  · exact absurd hl (Nat.not_le_of_lt h)
  · exact ht

theorem exec_tsEncodeInt_of_word {v : Word} (hv : encodeInt s.ts.civil = v.toNat) :
    exec .tsEncodeInt s = .next ((s.setResult v).finish .ok .clear) := by
  have hlt := v.isLt
  obtain ⟨t, ht⟩ := exec_answers .tsEncodeInt s
  obtain ⟨h, -⟩ | ⟨-, -, rfl⟩ := execTsEncodeInt_cases ht
  · omega
  · rw [ht, hv, Int.toNat_natCast, BitVec.ofNat_toNat, BitVec.setWidth_eq]

theorem exec_tsEncodeInt_of_range (hr : encodeInt s.ts.civil < 0 ∨ 2 ^ 32 ≤ encodeInt s.ts.civil) :
    exec .tsEncodeInt s = .next (s.finish .range .clear) := by
  obtain ⟨t, ht⟩ := exec_answers .tsEncodeInt s
  obtain ⟨-, rfl⟩ | ⟨h0, h1, -⟩ := execTsEncodeInt_cases ht
  · exact ht
  · omega

/-- TS_ENCODE_INT without an error puts the exact value into `RESULT` (R102). -/
theorem toNat_result_of_tsEncodeInt (h : exec .tsEncodeInt s = .next t) (hok : t.status.err = .ok) :
    (t.result.toNat : Int) = encodeInt s.ts.civil := by
  obtain ⟨-, rfl⟩ | ⟨h0, h1, rfl⟩ := execTsEncodeInt_cases h
  · cases hok
  · exact toNat_ofNat_of_word h0 h1

theorem exec_tsEncodeInt_withConv (c : MonthConv) (h : exec .tsEncodeInt s = .next t) :
    exec .tsEncodeInt { s with tsConv := c } = .next { t with tsConv := c } := by
  obtain ⟨hr, rfl⟩ | ⟨h0, h1, rfl⟩ := execTsEncodeInt_cases h
  · exact exec_tsEncodeInt_of_range (s := { s with tsConv := c }) hr
  · exact exec_tsEncodeInt_of_word (s := { s with tsConv := c }) (toNat_ofNat_of_word h0 h1).symm

/-! ### The month of a 6-byte time (R103, R104) -/

theorem parse_ts_of_ok {w : Nat} {l : List Byte → Parsed} {c : Civil} {m : MonthConv} (hl : (l s.slice).time = some (c, m))
    (hok : (s.parse w l).status.err = .ok) : (s.parse w l).ts = c.bank := by
  obtain ⟨-, h⟩ | ⟨-, -, h⟩ | ⟨-, -, h⟩ := parse_cases (s := s) w l <;> rw [h] at hok ⊢
  · cases hok
  · cases hok
  · exact (commitParse_ts_some s _ c m hl).1

/-- The three producers of a 0-indexed month leave a 6-byte time in the bank. -/
theorem exists_decodeHex_of_ok {i : Instr} (hi : i = .tsDecodeHex ∨ i = .parseRtS ∨ i = .parseRtL) (h : exec i s = .next t)
    (hok : t.status.err = .ok) : ∃ B o, t.ts = (decodeHex B o).bank := by
  obtain rfl | rfl | rfl := hi
  · obtain ⟨-, rfl⟩ | ⟨-, -, rfl⟩ | ⟨-, -, rfl⟩ := execTsDecodeHex_cases h
    · cases hok
    · cases hok
    · exact ⟨_, _, rfl⟩
  all_goals
    injection h with h
    subst h
    exact ⟨_, _, parse_ts_of_ok rfl hok⟩

theorem toInt_month_decodeHex_lt (B : List Byte) (o : Nat) : (decodeHex B o).bank.month.toInt < 2147483647 := by
  obtain ⟨-, hmonth, -⟩ := hexTime_bank B o
  have hlt := byteAt_lt B (o + 1)
  omega

@[simp] theorem writeReg_tsMonth_ts (s : State) (v : Word) : (s.writeReg v .tsMonth).ts = { s.ts with month := v } := rfl

/-- The bank after the host has written `TS_MONTH + 1`, read as signed. -/
theorem civil_succ_month (T : Timestamp) (hT : T.month.toInt < 2147483647) :
    { T with month := T.month + 1 }.civil = { T.civil with month := T.civil.month + 1 } := by
  simp only [Timestamp.civil, toInt_succ _ hT]

/-! ### The statements -/

/-- Settles O30: the bank holds the mixed-radix fields, and a quotient of a 32-bit value by a year is at most 133. -/
theorem tsDecodeIntFields : Obligations.TsDecodeIntFields := by
  intro s
  have hlt := s.arg.isLt
  obtain ⟨hyear, hmonth, hday, -⟩ := intTime_bank s.arg.toNat hlt
  refine ⟨_, exec_tsDecodeInt s, ⟨rfl, rfl⟩, rfl, intTime_bank _ hlt, ?_⟩
  simp only [finish_ts, setTime_ts]
  omega

/-- Settles O32: a slice that fits and has 6 bytes leaves TS_DECODE_HEX only its success. -/
theorem tsDecodeHexFields : Obligations.TsDecodeHexFields :=
  fun _ hs hl => ⟨_, exec_tsDecodeHex_of_fits hs hl, ⟨rfl, rfl⟩, rfl, hexTime_slice 0 hl⟩

/-- Settles O33: the bank reads back as the decoded time, whose integer form is `ARG`. -/
theorem tsEncodeUndoesDecode : Obligations.TsEncodeUndoesDecode := by
  intro s t h
  refine ⟨_, exec_tsEncodeInt_of_word (v := s.arg) ?_, rfl, rfl, rfl⟩
  rw [ts_of_tsDecodeInt h, civil_bank_decodeInt s.arg.isLt, encodeInt_decodeInt]

/-- Settles O34: `RESULT` is the integer form of the bank, and the canonical ranges make its digits unique. -/
theorem tsDecodeUndoesEncode : Obligations.TsDecodeUndoesEncode := by
  intro s t u hyear hmonth hmonth' hday hday' hhour hhour' hminute hminute' hsecond hsecond' ht hok hu
  have hc : s.ts.civil.Canonical :=
    ⟨hyear, ⟨hmonth, hmonth'⟩, ⟨hday, hday'⟩, ⟨hhour, hhour'⟩, ⟨hminute, hminute'⟩, ⟨hsecond, hsecond'⟩⟩
  have hresult : t.result.toNat = (encodeInt s.ts.civil).toNat := by
    rw [← toNat_result_of_tsEncodeInt ht hok, Int.toNat_natCast]
  simpa only [hresult, decodeInt_encodeInt hc, Timestamp.bank_civil] using ts_of_tsDecodeInt hu

/-- Settles O35: the encoder reads the bank only, and a 6-byte month is small enough to be raised by one exactly. -/
theorem monthConventionHazard : Obligations.MonthConventionHazard := by
  refine ⟨fun s c t h => exec_tsEncodeInt_withConv c h, ?_⟩
  intro i s t u v hi ht hok hu huok hv hvok
  obtain ⟨B, o, hts⟩ := exists_decodeHex_of_ok hi ht hok
  have hmonth : t.ts.month.toInt < 2147483647 := hts ▸ toInt_month_decodeHex_lt B o
  have hearly := toNat_result_of_tsEncodeInt hu huok
  have hfixed := toNat_result_of_tsEncodeInt hv hvok
  rw [writeReg_tsMonth_ts, civil_succ_month _ hmonth, encodeInt_succ_month, ← hearly] at hfixed
  exact_mod_cast hfixed

end Sys2Proof.Machine
end

section
/-! PROOFS. What a successful parse writes, layout by layout (R110 to R117). -/

namespace Sys2Proof.Machine

variable {s : State}

/-- A slice that fits and has the layout's width leaves a parse only its success (R110). -/
theorem exec_parse_of_fits {i : Instr} {w : Nat} (l : List Byte → Parsed) (hi : exec i s = .next (s.parse w l))
    (hs : s.SliceFits) (hl : w ≤ s.ilen.toNat) : exec i s = .next ((s.commitParse (l s.slice)).finish .ok .clear) := by
  rw [hi]
  obtain ⟨h, -⟩ | ⟨-, h, -⟩ | ⟨-, -, h⟩ := parse_cases (s := s) w l
  · exact absurd hs h
  · exact absurd hl (Nat.not_le_of_lt h)
  · rw [h]

theorem commitParse_succeeds (s : State) (p : Parsed) (fl : DecodeFlags) :
    Succeeds s ((s.commitParse p).finish .ok fl) fl := by
  simp only [Succeeds, finish_status, finish_pending, commitParse_status, and_self]

/-- `REC_VALID` after a parse that hands over `p` (R34). -/
def Parsed.validWord (p : Parsed) : Word := { p.recd with hasTime := p.time.isSome }.validWord

/-- `REC_VALID` says which fields are set and nothing of their values, so it is read off any parse `q`
of the same layout. -/
theorem recValid_of_sameFields {p : Parsed} {v : Word} (q : Parsed) (h : p.validWord = q.validWord := by rfl)
    (hq : q.validWord = v := by decide) : ((s.commitParse p).finish .ok .clear).readReg .recValid = v := by
  rw [← hq, ← h, Parsed.validWord, ← commitParse_recd s p]
  rfl

/-! ### The layouts without a time -/

/-- Settles O38: each field of the short user record is read at its offset inside the 28 bytes. -/
theorem parseUserShortRecord : Obligations.ParseUserShortRecord := fun s hs hl =>
  ⟨_, exec_parse_of_fits layoutUserS rfl hs hl, commitParse_succeeds s _ _, rfl, recValid_of_sameFields (layoutUserS []),
    toNat_le16 0 (by omega), toNat_byteAt 2 (by omega), ⟨_, rfl, isText_slice 8 16 (by decide) (by omega)⟩,
    toNat_le32 24 (by omega)⟩

/-- Settles O39: each field of the long user record is read at its offset inside the 72 bytes. -/
theorem parseUserLongRecord : Obligations.ParseUserLongRecord := fun s hs hl =>
  ⟨_, exec_parse_of_fits layoutUserL rfl hs hl, commitParse_succeeds s _ _, rfl, recValid_of_sameFields (layoutUserL []),
    toNat_le16 0 (by omega), toNat_byteAt 2 (by omega),
    ⟨_, rfl, isText_slice 3 11 (by decide) (by omega)⟩, ⟨_, rfl, isText_slice 11 35 (by decide) (by omega)⟩,
    toNat_le32 35 (by omega), ⟨_, rfl, isText_slice 48 57 (by decide) (by omega)⟩⟩

theorem devOffs_of_legal {p : Params} (hp : p.legal = true) :
    p.devOffUsers + 4 ≤ p.devWidth ∧ p.devOffLogs + 4 ≤ p.devWidth ∧ p.devOffCap + 4 ≤ p.devWidth := by
  simp only [Params.legal, Bool.and_eq_true, decide_eq_true_eq] at hp
  omega

/-- Settles O44: legal parameters put each counter inside the DeviceInfo width (R6). -/
theorem parseDevinfoRecord : Obligations.ParseDevinfoRecord := by
  intro s hp hs hl
  obtain ⟨husers, hlogs, hcap⟩ := devOffs_of_legal hp
  exact ⟨_, exec_parse_of_fits (layoutDevinfo s.cfg) rfl hs hl, commitParse_succeeds s _ _, rfl,
    recValid_of_sameFields (layoutDevinfo Config.params []),
    toNat_le32 _ (husers.trans hl), toNat_le32 _ (hlogs.trans hl), toNat_le32 _ (hcap.trans hl)⟩

/-! ### The layouts with an integer time -/

theorem intTime_slice (o : Nat) (h : o + 4 ≤ s.ilen.toNat) :
    IntTime (u32At s.sliceByte o) (decodeInt (le32 s.slice o)).bank := by
  rw [← le32_slice o h]
  exact intTime_bank _ (le32_lt _ _)

/-- Settles O40: the user id is widened from 2 bytes, and the time is the mixed-radix u32 at 4. -/
theorem parseAttendanceShortRecord : Obligations.ParseAttendanceShortRecord := fun s hs hl =>
  ⟨_, exec_parse_of_fits layoutAttS rfl hs hl, commitParse_succeeds s _ _, rfl, recValid_of_sameFields (layoutAttS []),
    toNat_le16w 0 (by omega), rfl, intTime_slice 4 (by omega)⟩

/-- Settles O41: the time is the mixed-radix u32 at 27; little-endian reads need no alignment. -/
theorem parseAttendanceLongRecord : Obligations.ParseAttendanceLongRecord := fun s hs hl =>
  ⟨_, exec_parse_of_fits layoutAttL rfl hs hl, commitParse_succeeds s _ _, rfl, recValid_of_sameFields (layoutAttL []),
    toNat_le16 0 (by omega), ⟨_, rfl, isText_slice 2 11 (by decide) (by omega)⟩, rfl, intTime_slice 27 (by omega)⟩

/-! ### The layouts with a 6-byte time -/

/-- Settles O42: the user id is the one byte at 8, and the time is the six bytes at 12. -/
theorem parseRealTimeShortRecord : Obligations.ParseRealTimeShortRecord := fun s hs hl =>
  ⟨_, exec_parse_of_fits layoutRtS rfl hs hl, commitParse_succeeds s _ _, rfl, recValid_of_sameFields (layoutRtS []),
    toNat_byteAtw 8 (by omega), rfl, hexTime_slice 12 (by omega)⟩

/-- Behind the 16 bytes stripped, the user id stands at the absolute offset 16 (R73). -/
theorem layoutRtL_useridStr (S : List Byte) : (layoutRtL S).recd.useridStr = some (asciiz S 16 25) :=
  congrArg some (asciiz_drop S 16 0 9)

/-- Behind the 16 bytes stripped, the time stands at the absolute offset 42 (R73). -/
theorem layoutRtL_time (S : List Byte) : (layoutRtL S).time = some (decodeHex S 42, .zeroIndexed) :=
  congrArg (fun c => some (c, MonthConv.zeroIndexed)) (decodeHex_drop S 16 26)

/-- Settles O43: the fields are read behind the envelope and the header, at their absolute offsets. -/
theorem parseRealTimeLongRecord : Obligations.ParseRealTimeLongRecord := by
  intro s hs hl
  obtain ⟨hts, hconv⟩ := commitParse_ts_some s _ _ _ (layoutRtL_time s.slice)
  refine ⟨_, exec_parse_of_fits layoutRtL rfl hs hl, commitParse_succeeds s _ _, rfl, recValid_of_sameFields (layoutRtL []),
    ⟨_, layoutRtL_useridStr s.slice, isText_slice 16 25 (by decide) (by omega)⟩, hconv, ?_⟩
  rw [finish_ts, hts]
  exact hexTime_slice 42 (by omega)

end Sys2Proof.Machine
end

section
/-! PROOFS. The errors of the engine (R121 to R132): which operation ends with which error, and when. -/

namespace Sys2Proof.Machine

variable {s t : State} {i : Instr} {env : Bool}

/-! ### Words that are no op code (R129) -/

/-- A step in which the engine moves with a word pending is its completion. -/
theorem step_engine {s1 : State} {w : Word} (h : s.nextTurn = (.engine, s1)) (hp : s1.pending = some w) :
    step s = s1.complete w := by
  rw [step, h]
  simp only [State.takeTurn, State.engineTurn, hp]

theorem toNat_encode_mem (i : Instr) :
    (Sys2Proof.encode i).toNat
      ∈ [0x01, 0x02, 0x03, 0x10, 0x11, 0x12, 0x13, 0x14, 0x15, 0x16, 0x20, 0x21, 0x22] := by
  cases i <;> decide

theorem complete_of_not_opCode {w : Word} (h : ∀ i, w ≠ Sys2Proof.encode i) :
    s.complete w = .next (s.finish .illegalOp .clear) := by
  unfold State.complete
  split
  case h_1 i hd => exact absurd (decode_ok hd) (h i)
  case h_2 => rfl

/-- Settles O4: the code of every operation is in the list, so the pending word is none of them. -/
theorem illegalWordWritesOnlyStatus : Obligations.IllegalWordWritesOnlyStatus := by
  intro s s1 w hturn hp hw
  refine ⟨s1.finish .illegalOp .clear, ?_, rfl⟩
  rw [step_engine hturn hp]
  exact complete_of_not_opCode fun i hi => hw (hi ▸ toNat_encode_mem i)

/-! ### The two outcomes of R124 -/

theorem noteMismatch_false (s : State) : s.noteMismatch false = s := by
  simp only [State.noteMismatch, Bool.or_false]

theorem noteMismatch_finish_frame (s : State) (b : Bool) (e : Err) (fl : DecodeFlags) :
    (s.noteMismatch b).finish e fl
      = { s with status := ((s.noteMismatch b).finish e fl).status, pending := none } := rfl

/-- Settles O11: of the outcomes of R124 only the first is an error, and it writes the status alone. -/
theorem everyOperationCompletes : Obligations.EveryOperationCompletes := by
  intro i s
  obtain ⟨t, ht⟩ := exec_answers i s
  refine ⟨t, ht, ?_⟩
  obtain ⟨e, fl, b, rfl, -, hfl⟩ | ⟨v, -, rfl⟩ | ⟨-, -, -, rfl⟩ | ⟨v, fl, b, rfl, -, -, rfl⟩ | ⟨c, m, -, rfl⟩ | ⟨p, rfl, -⟩ :=
    exec_cases i ht
  case inl =>
    refine ⟨rfl, rfl, rfl, fun _ => noteMismatch_finish_frame s b e fl, fun hi => ?_, fun hs => by simp [hs]⟩
    obtain ⟨rfl, rfl⟩ := hfl hi
    exact ⟨rfl, Bool.or_false _⟩
  case inr.inr.inr.inl => exact ⟨rfl, rfl, rfl, fun h => absurd rfl h, fun hi => absurd rfl hi, fun hs => by simp [hs]⟩
  case inr.inr.inr.inr.inr =>
    exact ⟨rfl, rfl, rfl, fun h => absurd rfl h, fun _ => ⟨rfl, by simp⟩, fun hs => by simp [hs]⟩
  all_goals exact ⟨rfl, rfl, rfl, fun h => absurd rfl h, fun _ => ⟨rfl, rfl⟩, id⟩

/-! ### Which operation ends with which error (R125 to R132) -/

/-- The state `t` in which an operation can end from `s`: without an error, and then its slice passed every check, or
with an error, and then the checks of R132 before it passed. -/
inductive Ends (s : State) : Instr → State → Prop
  | ok {i : Instr} {t : State} (hok : t.status.err = .ok) (hs : i ≠ .tsDecodeInt → i ≠ .tsEncodeInt → s.SliceFits)
      (hw : ∀ w, neededWidth s.cfg i = some w → w ≤ s.ilen.toNat) : Ends s i t
  | bounds {i : Instr} (h1 : i ≠ .tsDecodeInt) (h2 : i ≠ .tsEncodeInt) (hs : ¬ s.SliceFits) :
      Ends s i (s.finish .bounds .clear)
  | short {i : Instr} {w : Nat} (hs : s.SliceFits) (hw : neededWidth s.cfg i = some w) (hl : s.ilen.toNat < w) :
      Ends s i (s.finish .decodeError .clear)
  | lengthOverflow (hs : s.SliceFits) : Ends s .encode (s.finish .lengthOverflow .clear)
  | malformed (hs : s.SliceFits) (b : Bool) (fl : DecodeFlags) :
      Ends s .decode ((s.noteMismatch b).finish .malformedFrame fl)
  | checksum (hs : s.SliceFits) (b : Bool) (fl : DecodeFlags) :
      Ends s .decode ((s.noteMismatch b).finish .checksumMismatch fl)
  | range : Ends s .tsEncodeInt (s.finish .range .clear)

theorem ends_parse {w : Nat} (hw : neededWidth s.cfg i = some w) (l : List Byte → Parsed) : Ends s i (s.parse w l) := by
  have h1 : i ≠ .tsDecodeInt := by rintro rfl; cases hw
  have h2 : i ≠ .tsEncodeInt := by rintro rfl; cases hw
  obtain ⟨hs, h⟩ | ⟨hs, hl, h⟩ | ⟨hs, hl, h⟩ := parse_cases (s := s) w l <;> rw [h]
  · exact .bounds h1 h2 hs
  · exact .short hs hw hl
  · exact .ok rfl (fun _ _ => hs) fun _ hv => Option.some.inj (hw.symm.trans hv) ▸ hl

/-- Every operation ends in one of these ways. -/
theorem exec_ends (h : exec i s = .next t) : Ends s i t := by
  cases i
  case csum =>
    obtain ⟨hs, rfl⟩ | ⟨hs, rfl⟩ := execCsum_cases h
    · exact .bounds nofun nofun hs
    · exact .ok rfl (fun _ _ => hs) nofun
  case encode =>
    obtain ⟨hs, rfl⟩ | ⟨hs, -, rfl⟩ | ⟨hs, -, rfl⟩ := execEncode_cases h
    · exact .bounds nofun nofun hs
    · exact .lengthOverflow hs
    · exact .ok rfl (fun _ _ => hs) nofun
  case decode =>
    obtain ⟨hs, rfl⟩ | ⟨hs, -, rfl⟩ | ⟨hs, -, -, -, rfl⟩ | ⟨hs, -, -, -, -, rfl⟩ | ⟨hs, -, -, rfl⟩ := execDecode_cases h
    · exact .bounds nofun nofun hs
    · simpa only [noteMismatch_false] using Ends.malformed hs false _
    · exact .malformed hs _ _
    · exact .checksum hs _ _
    · exact .ok rfl (fun _ _ => hs) nofun
  case tsDecodeInt =>
    obtain ⟨c, rfl⟩ := execTsDecodeInt_finish h
    exact .ok rfl (fun hi => absurd rfl hi) nofun
  case tsEncodeInt =>
    obtain ⟨-, rfl⟩ | ⟨-, -, rfl⟩ := execTsEncodeInt_cases h
    · exact .range
    · exact .ok rfl (fun _ hi => absurd rfl hi) nofun
  case tsDecodeHex =>
    obtain ⟨hs, rfl⟩ | ⟨hs, hl, rfl⟩ | ⟨hs, hl, rfl⟩ := execTsDecodeHex_cases h
    · exact .bounds nofun nofun hs
    · exact .short hs rfl hl
    · exact .ok rfl (fun _ _ => hs) fun _ hv => Option.some.inj hv ▸ hl
  all_goals exact Host.Outcome.next.inj h ▸ ends_parse rfl _

/-- Settles O14: the bounds check comes first, and only an operation that reads a slice makes it. -/
theorem boundsCheckedFirst : Obligations.BoundsCheckedFirst := by
  intro i s
  obtain ⟨t, ht⟩ := exec_answers i s
  refine ⟨t, ht, ?_⟩
  cases exec_ends ht with
  | ok hok hs => exact ⟨fun h1 h2 hf => absurd (hs h1 h2) hf, fun he => nomatch hok.symm.trans he⟩
  | bounds h1 h2 hs => exact ⟨fun _ _ _ => rfl, fun _ => ⟨h1, h2, hs⟩⟩
  | short hs | lengthOverflow hs | malformed hs | checksum hs => exact ⟨fun _ _ hf => absurd hs hf, nofun⟩
  | range => exact ⟨fun _ h2 => absurd rfl h2, nofun⟩

/-- Settles O15: the width check is the only one that raises DECODE_ERROR, and nothing but the bounds check comes
before it. -/
theorem shortSliceIsDecodeError : Obligations.ShortSliceIsDecodeError := by
  intro i s
  obtain ⟨t, ht⟩ := exec_answers i s
  refine ⟨t, ht, ?_⟩
  cases exec_ends ht with
  | ok hok _ hw => exact ⟨fun w h _ hl => absurd (hw w h) (Nat.not_le_of_lt hl), fun he => nomatch hok.symm.trans he⟩
  | bounds _ _ hs => exact ⟨fun _ _ hf => absurd hf hs, nofun⟩
  | short _ hw hl => exact ⟨fun _ _ _ _ => rfl, fun _ => ⟨_, hw, hl⟩⟩
  | lengthOverflow | malformed | checksum | range => exact ⟨nofun, nofun⟩

/-- Settles O23: of a slice that fits, ENCODE checks the frame's length and nothing else. -/
theorem encodeRefusesLongFrames : Obligations.EncodeRefusesLongFrames := by
  intro s hs
  obtain ⟨t, ht⟩ := exec_answers .encode s
  refine ⟨t, ht, ?_⟩
  obtain ⟨h, -⟩ | ⟨-, hf, rfl⟩ | ⟨-, hf, rfl⟩ := execEncode_cases ht
  · exact absurd hs h
  · exact ⟨fun _ => rfl, fun h => absurd h hf⟩
  · exact ⟨fun h => absurd hf h, fun _ => rfl⟩

/-- Settles O31: the operation's value is the formula's (R101), and its two ends are the two clauses. -/
theorem tsEncodeIntFormula : Obligations.TsEncodeIntFormula := by
  intro s r hr
  rw [← encodeInt_civil] at hr
  subst hr
  obtain ⟨t, ht⟩ := exec_answers .tsEncodeInt s
  refine ⟨t, ht, ?_⟩
  obtain ⟨hr, rfl⟩ | ⟨h0, h1, rfl⟩ := execTsEncodeInt_cases ht
  · exact ⟨fun h0 h1 => by omega, fun _ => rfl⟩
  · exact ⟨fun _ _ => ⟨⟨rfl, rfl⟩, toNat_ofNat_of_word h0 h1⟩, fun h => by omega⟩

/-! ### The errors of DECODE (R126, R128) -/

theorem frameView_flags (henv : env = true ↔ s.EnvFound) (hl : frameAt env + 8 ≤ s.ilen.toNat) :
    s.frameView.flags = s.frameFlags env := by
  rw [frameView_eq henv, viewFrame_flags env hl]

theorem lenMismatch_frameFlags_iff :
    (s.frameFlags env).lenMismatch = true ↔ env = true ∧ u16At s.sliceByte 4 ≠ s.ilen.toNat - 8 := by
  rw [State.frameFlags, Bool.and_eq_true, decide_eq_true_iff]

theorem csumMismatch_frameFlags_iff :
    (s.frameFlags env).csumMismatch = true ↔ s.receivedChecksum env ≠ u16At s.sliceByte (frameAt env + 2) :=
  decide_eq_true_iff

/-- How a DECODE whose slice fits can end, in the order of its checks (R93, R132): too short for its header, an inner length
or a checksum that strict mode refuses, or decoded. -/
theorem execDecode_cases_of_fits (henv : env = true ↔ s.EnvFound) (hs : s.SliceFits) (h : exec .decode s = .next t) :
    (s.ilen.toNat < frameAt env + 8 ∧ t = s.finish .malformedFrame { DecodeFlags.clear with envPresent := env })
      ∨ (frameAt env + 8 ≤ s.ilen.toNat ∧ s.ctrl.strict = true ∧ (s.frameFlags env).lenMismatch = true
          ∧ t = (s.noteMismatch (s.frameFlags env).csumMismatch).finish .malformedFrame (s.frameFlags env))
      ∨ (frameAt env + 8 ≤ s.ilen.toNat ∧ s.ctrl.strict = true ∧ (s.frameFlags env).lenMismatch = false
          ∧ (s.frameFlags env).csumMismatch = true
          ∧ t = (s.noteMismatch (s.frameFlags env).csumMismatch).finish .checksumMismatch (s.frameFlags env))
      ∨ (frameAt env + 8 ≤ s.ilen.toNat
          ∧ (s.ctrl.strict = true → (s.frameFlags env).lenMismatch = false ∧ (s.frameFlags env).csumMismatch = false)
          ∧ t = s.decoded) := by
  have hlong (hf : frameTooShort env s.slice = false) : frameAt env + 8 ≤ s.ilen.toNat :=
    Nat.le_of_not_lt fun hl => Bool.false_ne_true (hf.symm.trans ((frameTooShort_iff env).2 hl))
  have hcases := execDecode_cases h
  rw [hasEnvelope_eq env henv] at hcases
  obtain ⟨hf, -⟩ | ⟨-, hshort, ht⟩ | ⟨-, hf, hmode⟩ | ⟨-, hf, hmode⟩ | ⟨-, hf, hmode⟩ := hcases
  · exact absurd hs hf
  · exact .inl ⟨(frameTooShort_iff env).1 hshort, ht⟩
  all_goals
    have hl := hlong hf
    rw [← frameView_flags henv hl]
  · exact .inr (.inl ⟨hl, hmode⟩)
  · exact .inr (.inr (.inl ⟨hl, hmode⟩))
  · exact .inr (.inr (.inr ⟨hl, hmode⟩))

/-- Only DECODE of a slice that fits raises the two errors of a frame (R126, R128). -/
theorem decode_of_frame_error (h : exec i s = .next t)
    (he : t.status.err = .malformedFrame ∨ t.status.err = .checksumMismatch) : i = .decode ∧ s.SliceFits := by
  cases exec_ends h with
  | malformed hs | checksum hs => exact ⟨rfl, hs⟩
  | ok hok => simp [hok] at he
  | bounds | short | lengthOverflow | range => simp at he

/-- Settles O27: (a) and (b) are the check of the header's length, (c) strict mode's check of the inner length. -/
theorem decodeMalformedFrames : Obligations.DecodeMalformedFrames := by
  refine ⟨fun s env henv hs => ?_, fun i s t env henv h he => ?_⟩
  · obtain ⟨t, ht⟩ := exec_answers .decode s
    obtain ⟨hl, rfl⟩ | ⟨hl, -, -, rfl⟩ | ⟨hl, -, hlen, -⟩ | ⟨hl, hok, -⟩ := execDecode_cases_of_fits henv hs ht
    · exact ⟨fun _ => ⟨_, ht, rfl⟩, fun hl' => absurd hl (Nat.not_lt_of_le hl')⟩
    all_goals refine ⟨fun hl' => absurd hl (Nat.not_le_of_lt hl'), fun _ hstrict he hne => ?_⟩
    · exact ⟨_, ht, rfl⟩
    · exact absurd (hlen.symm.trans (lenMismatch_frameFlags_iff.2 ⟨he, hne⟩)) Bool.false_ne_true
    · exact absurd ((hok hstrict).1.symm.trans (lenMismatch_frameFlags_iff.2 ⟨he, hne⟩)) Bool.false_ne_true
  · obtain ⟨rfl, hs⟩ := decode_of_frame_error h (.inl he)
    refine ⟨rfl, ?_⟩
    obtain ⟨hl, -⟩ | ⟨-, hstrict, hlen, -⟩ | ⟨-, -, -, -, rfl⟩ | ⟨-, -, rfl⟩ := execDecode_cases_of_fits henv hs h
    · exact .inl hl
    · exact .inr ⟨hstrict, lenMismatch_frameFlags_iff.1 hlen⟩
    · cases he
    · cases he

/-- Settles O28: DECODE notes the mismatch before the mode decides whether it is an error. -/
theorem checksumMismatchByMode : Obligations.ChecksumMismatchByMode := by
  refine ⟨fun s env henv hs hl hne => ?_, fun i s t env henv h he => ?_⟩
  · have hcsum := csumMismatch_frameFlags_iff.2 hne
    have hsticky : (s.status.csumSticky || (s.frameFlags env).csumMismatch) = true := by rw [hcsum, Bool.or_true]
    cases hstrict : s.ctrl.strict
    case false =>
      obtain ⟨t, ht, hstatus, -, hcmd, hfield, hsid, hrid, holen, hpayload, -⟩ :=
        decodeTakesFrameApart s env henv hs hl fun h => nomatch hstrict.symm.trans h
      refine ⟨t, ht, ?_⟩
      rw [hstatus]
      exact ⟨hcsum, hsticky, nofun, fun _ => ⟨rfl, hcmd, hfield, hsid, hrid, holen, hpayload⟩⟩
    case true =>
      obtain ⟨t, ht⟩ := exec_answers .decode s
      refine ⟨t, ht, ?_⟩
      obtain ⟨hshort, -⟩ | ⟨-, -, hlen, rfl⟩ | ⟨-, -, -, -, rfl⟩ | ⟨-, hok, -⟩ := execDecode_cases_of_fits henv hs ht
      · exact absurd hl (Nat.not_le_of_lt hshort)
      · obtain ⟨he, hinner⟩ := lenMismatch_frameFlags_iff.1 hlen
        exact ⟨hcsum, hsticky, fun _ hlen' => absurd (hlen' he) hinner, nofun⟩
      · exact ⟨hcsum, hsticky, fun _ _ => ⟨rfl, rfl⟩, nofun⟩
      · exact absurd ((hok hstrict).2.symm.trans hcsum) Bool.false_ne_true
  · obtain ⟨rfl, hs⟩ := decode_of_frame_error h (.inr he)
    obtain ⟨-, rfl⟩ | ⟨-, -, -, rfl⟩ | ⟨-, hstrict, -, hcsum, -⟩ | ⟨-, -, rfl⟩ := execDecode_cases_of_fits henv hs h
    · cases he
    · cases he
    · exact ⟨rfl, hstrict, csumMismatch_frameFlags_iff.1 hcsum⟩
    · cases he

end Sys2Proof.Machine
end

section
/-! PROOFS. Whose turn it is, and what the step then does (R5, R139). -/

namespace Sys2Proof.Machine

variable {s s1 : State}

/-! ### The next turn, case by case (log 1) -/

theorem nextTurn_of_turns_cons {turn : Turn} {rest : List Turn} (h : s.turns = turn :: rest) :
    s.nextTurn = (turn, { s with turns := rest }) := by
  unfold State.nextTurn; rw [h]

theorem nextTurn_of_not_pending (h : s.turns = []) (hp : s.pending = none) : s.nextTurn = (.host, s) := by
  unfold State.nextTurn; simp [h, hp]

theorem nextTurn_of_due (h : s.turns = []) (hp : s.pending ≠ none) (hd : s.delay = 0) : s.nextTurn = (.engine, s) := by
  unfold State.nextTurn; simp [h, hp, hd]

theorem nextTurn_of_delayed {d : Nat} (h : s.turns = []) (hp : s.pending ≠ none) (hd : s.delay = d + 1) :
    s.nextTurn = (.host, { s with delay := d }) := by
  unfold State.nextTurn; simp [h, hp, hd]

theorem step_of_turns_cons {turn : Turn} {rest : List Turn} (h : s.turns = turn :: rest) :
    step s = ({ s with turns := rest }).takeTurn turn := by
  rw [step, nextTurn_of_turns_cons h]

/-! ### The engine -/

theorem engineTurn_of_not_pending (hp : s.pending = none) : s.engineTurn = .next s := by
  unfold State.engineTurn; rw [hp]

theorem complete_of_decode {w : Word} {i : Instr} (h : Sys2Proof.decode w = .ok i) : s.complete w = exec i s := by
  unfold State.complete; rw [h]

/-- The four bytes of a word decode as the word does (R49, R63). -/
theorem decodeBytes_bytesOfWord_eq_ok_iff {w : Word} {i : Instr} :
    decodeBytes (bytesOfWord w) = .ok (i, []) ↔ Sys2Proof.decode w = .ok i := by
  simp only [bytesOfWord, decodeBytes, wordOfBytes_bytesOfWord]
  cases Sys2Proof.decode w <;> simp

/-- Settles O3: the step is the completion of the pending word, whose bytes decode as it does. -/
theorem stepRunsDecodedOperation : Obligations.StepRunsDecodedOperation :=
  fun _ _ _ _ hturn hp hdecode =>
    (step_engine hturn hp).trans (complete_of_decode (decodeBytes_bytesOfWord_eq_ok_iff.1 hdecode))

/-- Settles O5: each clause is one case of the next turn. -/
theorem turnsAreTakenInOrder : Obligations.TurnsAreTakenInOrder := by
  refine ⟨fun s turn rest => step_of_turns_cons, fun s h hp => step_host (nextTurn_of_not_pending h hp),
    fun s w h hp hd => step_engine (nextTurn_of_due h (by simp [hp]) hd) hp,
    fun s w d h hp hd => step_host (nextTurn_of_delayed h (by simp [hp]) hd), fun s rest h hp => ?_⟩
  exact (step_of_turns_cons h).trans (engineTurn_of_not_pending hp)

end Sys2Proof.Machine
end

section
/-! PROOFS. The reset state: its registers and its invariant (R18, R140 to R142). -/

namespace Sys2Proof.Machine

/-- Every register but `ID` has the reset value 0; a string window reads the bytes of an unset string (R18, R37). -/
theorem readReg_reset {r : Reg} (hr : r ≠ .id) : State.reset.readReg r = 0 := by
  cases r
  case id => exact absurd rfl hr
  case ctrl | status | recValid => decide
  case recPassword k | recName k | recUserid k => exact stringWord_none k
  all_goals rfl

/-- What reset keeps (the parameters, the host agent, the turns, the counts) is no register (log 10). -/
theorem readReg_assertReset (s : State) (r : Reg) : s.assertReset.readReg r = State.reset.readReg r := by
  cases r <;> rfl

/-- Settles O6: the step asserts reset, whatever was pending. -/
theorem resetClearsEveryRegister : Obligations.ResetClearsEveryRegister :=
  fun _ _ h => ⟨_, step_of_turns_cons h, rfl, rfl, fun r hr => (readReg_assertReset _ r).trans (readReg_reset hr)⟩

theorem params_legal_iff (p : Params) :
    p.legal = true
      ↔ p.base % 0x40000 = 0 ∧ 16 ≤ p.bufBytes ∧ p.bufBytes ≤ 65536 ∧ p.devOffUsers + 4 ≤ p.devWidth
        ∧ p.devOffLogs + 4 ≤ p.devWidth ∧ p.devOffCap + 4 ≤ p.devWidth ∧ p.devWidth ≤ p.bufBytes := by
  simp only [Params.legal, Bool.and_eq_true, decide_eq_true_iff, and_assoc]

/-- A drawn offset leaves room for its four bytes in a record of `w + 4` (R6). -/
theorem offset_draw_le (draw w : Nat) : draw % (4 + w - 3) + 4 ≤ 4 + w := by
  have hlt := Nat.mod_lt draw (show 0 < 4 + w - 3 by omega)
  omega

/-- Each open parameter is drawn inside its legal range (R6, R45). -/
theorem config_params_legal : Config.params.legal = true := by
  have hwidth := Nat.mod_lt Config.devWidthDraw (show 0 < 65533 by decide)
  refine (params_legal_iff _).2 ⟨Nat.mul_mod_right .., by decide, by decide, offset_draw_le _ _, offset_draw_le _ _,
    offset_draw_le _ _, ?_⟩
  change 4 + Config.devWidthDraw % 65533 ≤ 65536
  omega

/-- Settles O7: the parameters are legal, and everything else the invariant speaks of is empty or 0. -/
theorem invariantAtReset : Obligations.InvariantAtReset where
  params := config_params_legal
  ibuf := (wf_reset _).1
  obuf := (wf_reset _).2
  busy := rfl
  pending := nofun
  done := nofun
  olen := Nat.zero_le _
  recd := .empty
  vars := .nil

end Sys2Proof.Machine
end

section
/-! PROOFS. Accesses while an operation is pending (R145). -/

namespace Sys2Proof.Machine

variable {s : State} {op : BusOp}

theorem isStatusRead_iff {p : Params} : isStatusRead p op = true ↔ op = .read (p.base + 0x008) 4 := beq_iff_eq

/-- A read of `STATUS` is admitted whether or not an operation is pending. -/
theorem bus_statusRead (s : State) : s.bus (.read (s.cfg.base + 0x008) 4) = .ok (s, s.readReg .status) := by
  have htarget : busTarget s.cfg (s.cfg.base + 0x008) 4 = some (.reg .status) := busTarget_reg s.cfg .status rfl
  simp [State.bus, isStatusRead_iff.2, BusOp.addr, BusOp.width, htarget, State.readTarget]

theorem bus_of_hazard (hb : s.status.busy = true) (hop : op ≠ .read (s.cfg.base + 0x008) 4) :
    s.bus op = .error (.hostHazard op) := by
  have hread : isStatusRead s.cfg op = false := Bool.eq_false_iff.2 fun h => hop (isStatusRead_iff.1 h)
  simp [State.bus, hb, hread]

/-- Settles O56: the hazard check comes before the target is looked up, and lets only the read of `STATUS` through. -/
theorem hazardsExactly : Obligations.HazardsExactly :=
  fun s _ hb => ⟨fun h => h ▸ bus_statusRead s, fun h => bus_of_hazard hb h⟩

end Sys2Proof.Machine
end

section
/-! PROOFS. A pending operation completes, unless the host's own program stops the run (R139, R145). -/

namespace Sys2Proof.Machine

variable {s s1 : State}

/-- How a pending operation may end: nothing is pending any more, or the host has stopped the run by a hazard (R145) or by a
branch to a label it does not hold (log 8). -/
def Settled (o : Host.Outcome State Fault Refusal) : Prop :=
  (∃ t, o = .next t ∧ t.pending = none) ∨ (∃ op, o = .fault (.hostHazard op)) ∨ ∃ l, o = .refused (.undefinedLabel l)

/-- The steps that may still come before the completion: the settled turns and the drawn number of host turns (log 1). -/
def State.wait (s : State) : Nat := s.turns.length + s.delay

theorem wait_withHost (s : State) (a : HostAgent) : (s.withHost a).wait = s.wait := rfl

/-! ### What each agent's turn does to a pending operation -/

/-- A bus error needs an access that is not the read of `STATUS`, so while BUSY is 1 it is named a hazard (log 5). -/
theorem fault_eq_hazard_of_busy {op : BusOp} {f : Fault} (hb : s.status.busy = true) (h : s.bus op = .error f) :
    f = .hostHazard op := by
  by_cases hop : op = .read (s.cfg.base + 0x008) 4
  · rw [hop, bus_statusRead] at h; cases h
  · rw [bus_of_hazard hb hop] at h; cases h; rfl

/-- While BUSY is 1 the host's turn stops the run, or changes the host agent only. -/
theorem hostTurn_settled_or_keeps (hb : s.status.busy = true) :
    Settled s.hostTurn ∨ ∃ a, s.hostTurn = .next (s.withHost a) := by
  cases h : s.hostTurn with
  | next t => exact .inr ⟨t.host, congrArg _ (hostTurn_busy hb h)⟩
  | fault f =>
    obtain ⟨op, hop⟩ := hostTurn_fault h
    exact .inl (.inr (.inl ⟨op, congrArg _ (fault_eq_hazard_of_busy hb hop)⟩))
  | refused r =>
    obtain ⟨l, rfl⟩ := hostTurn_refused h
    exact .inl (.inr (.inr ⟨l, rfl⟩))

/-- A completion leaves nothing pending, for an op code and for any other word (R124, R129). -/
theorem complete_settled (s : State) (w : Word) : Settled (s.complete w) := by
  by_cases hw : ∃ i, w = Sys2Proof.encode i
  · obtain ⟨i, rfl⟩ := hw
    obtain ⟨t, ht, -, -, hp, -⟩ := everyOperationCompletes i s
    exact .inl ⟨t, (complete_of_decode (decode_encode i)).trans ht, hp⟩
  · exact .inl ⟨_, complete_of_not_opCode fun i hi => hw ⟨i, hi⟩, rfl⟩

/-! ### A step -/

/-- A host turn that comes while an operation is pending uses up a settled turn or one of the drawn ones. -/
theorem wait_lt_of_host_turn (hp : s.pending ≠ none) (h : s.nextTurn = (.host, s1)) : s1.wait < s.wait := by
  unfold State.wait
  cases hturns : s.turns with
  | cons turn rest =>
    rw [nextTurn_of_turns_cons hturns] at h
    cases h
    simp only [List.length_cons]; omega
  | nil =>
    cases hd : s.delay with
    | zero => rw [nextTurn_of_due hturns hp hd] at h; cases h
    | succ d => rw [nextTurn_of_delayed hturns hp hd] at h; cases h; simp [hturns]

/-- While an operation is pending each step settles it or brings its completion nearer. -/
theorem step_settled_or_waits (hinv : s.Inv) (hp : s.pending ≠ none) :
    Settled (step s) ∨ ∃ t, step s = .next t ∧ t.pending ≠ none ∧ t.wait < s.wait := by
  have hp1 : s.nextTurn.2.pending ≠ none := nextTurn_pending s ▸ hp
  have hinv1 := hinv.nextTurn
  rcases hturn : s.nextTurn with ⟨turn, s1⟩
  rw [hturn] at hp1 hinv1
  obtain ⟨w, hw⟩ := Option.ne_none_iff_exists'.1 hp1
  cases turn with
  | host =>
    have hb : s1.status.busy = true := by rw [hinv1.busy, hw]; rfl
    rw [step_host hturn]
    obtain h | ⟨a, ha⟩ := hostTurn_settled_or_keeps hb
    · exact .inl h
    · exact .inr ⟨_, ha, hp1, (wait_withHost s1 a).trans_lt (wait_lt_of_host_turn hp hturn)⟩
  | engine => rw [step_engine hturn hw]; exact .inl (complete_settled s1 w)
  | reset => exact .inl (.inl ⟨s1.assertReset, by rw [step, hturn]; rfl, rfl⟩)

/-! ### A run -/

theorem core_run_one (M : Host.Core) (s : M.State) : M.run 1 s = M.step s := by
  rw [Host.Core.run]
  cases M.step s <;> rfl

theorem core_run_succ {M : Host.Core} {s t : M.State} (h : M.step s = .next t) (k : Nat) : M.run (k + 1) s = M.run k t := by
  rw [Host.Core.run, h]

theorem run_settles (hinv : s.Inv) (hp : s.pending ≠ none) : ∃ k, k ≤ s.wait + 1 ∧ Settled (Sys2Proof.core.run k s) := by
  induction hn : s.wait using Nat.strong_induction_on generalizing s with
  | h n ih =>
    obtain h | ⟨t, ht, hpt, hlt⟩ := step_settled_or_waits hinv hp
    · exact ⟨1, by omega, (core_run_one Sys2Proof.core s).symm ▸ h⟩
    · obtain ⟨k, hk, hsettled⟩ := ih t.wait (hn ▸ hlt) (invariantKeptByStep s t hinv ht) hpt rfl
      exact ⟨k + 1, by omega, (core_run_succ (M := Sys2Proof.core) ht k).symm ▸ hsettled⟩

/-- Settles O9: the bound is the wait and one step more, as each step settles the operation or shortens the wait. -/
theorem pendingOperationCompletes : Obligations.PendingOperationCompletes :=
  fun _ => run_settles

end Sys2Proof.Machine
end
